-- ==== Sys2Proof/Word.lean ====
section
/-! DEFINITION. The word types of the block: bytes, command words and results (rules R11, R14, R85). -/

namespace Sys2Proof

/-- One cell of the packet buffer (rule R50), and the width of the bit history (rule R26). -/
abbrev Byte := BitVec 8

/-- One command word (rule R85). -/
abbrev CommandWord := BitVec 8

/-- A value on the result bus (rule R14). -/
abbrev Result := BitVec 16

end Sys2Proof
end

