-- ==== Sys2Proof/Syntax.lean ====
section
/-! DEFINITION. The commands of rule R86, one constructor for each row of the opcode table, with their operand fields
at the width rule R87 gives; the domains of rule R85; and the names under which reserved words are refused. -/

namespace Sys2Proof

/-- The commands of rule R86. -/
inductive Instr where
  /-- `TICK L` (rule R100): `level` is the pin level sampled at this tick. -/
  | tick (level : Bool)
  /-- `DECODE` (rule R130). -/
  | decode
  /-- `POLL` (rule R190). -/
  | poll
  /-- `RDBYTE i` (rule R191): `i` is the 3-bit packet byte index. -/
  | rdbyte (i : BitVec 3)
  /-- `ACK` (rule R192). -/
  | ack
  /-- `CRC` (rule R161). -/
  | crc
  /-- `VALID` (rule R162). -/
  | valid
  /-- `SID` (rule R163). -/
  | sid
  /-- `HUM` (rule R164). -/
  | hum
  /-- `TEMP` (rule R165). -/
  | temp
  /-- `RDSTAT k` (rule R193): `k` is the 4-bit status selector. -/
  | rdstat (k : BitVec 4)
  /-- `RESET` (rule R194). -/
  | reset
deriving DecidableEq, Repr

/-- The two domains that issue commands (rules R6, R18). -/
inductive Domain where
  | tick
  | cooperative
deriving DecidableEq, Repr

/-- The domain a command belongs to (rule R86). -/
def Instr.domain : Instr → Domain
  | .tick _ => .tick
  | .decode => .cooperative
  | .poll => .cooperative
  | .rdbyte _ => .cooperative
  | .ack => .cooperative
  | .crc => .cooperative
  | .valid => .cooperative
  | .sid => .cooperative
  | .hum => .cooperative
  | .temp => .cooperative
  | .rdstat _ => .cooperative
  | .reset => .cooperative

/-- Why a command word is reserved (the groups of rule R90). -/
inductive Reserved where
  /-- `op` is 0x0, 0xB, 0xC or 0xD (rule R89). -/
  | opcode
  /-- TICK with `cmd[3:1] != 0` (rule R87). -/
  | tickArgument
  /-- A non-zero `arg` where rule R88 requires 0. -/
  | argument
  /-- RDBYTE with `cmd[3] = 1` or `i > 4` (rule R87). -/
  | packetIndex
  /-- RDSTAT with `k > 9` (rule R87). -/
  | selector
deriving DecidableEq, Repr

end Sys2Proof
end

