-- ==== Sys2Proof/WellFormed.lean ====
section
/-! DEFINITION. Which instruction terms are well formed: the operand ranges of rule R87. -/

namespace Sys2Proof

/-- Rule R87: RDBYTE requires `i <= 4`, RDSTAT requires `k <= 9`; no other command has a restricted operand. -/
def Instr.wellFormed : Instr → Bool
  | .tick _ => true
  | .decode => true
  | .poll => true
  | .rdbyte i => i.toNat ≤ 4
  | .ack => true
  | .crc => true
  | .valid => true
  | .sid => true
  | .hum => true
  | .temp => true
  | .rdstat k => k.toNat ≤ 9
  | .reset => true

/-- The well-formed instruction terms, as a proposition. -/
abbrev WellFormed (i : Instr) : Prop := i.wellFormed = true

end Sys2Proof
end

