-- ==== Sys2Proof/Decode.lean ====
section
/-! DEFINITION. The command word of rules R85 to R90: the decoder, total on every word, and the encoder. -/

namespace Sys2Proof

/-- `op = cmd[7:4]` (rule R85). -/
def opField (w : CommandWord) : BitVec 4 := w.extractLsb' 4 4

/-- `arg = cmd[3:0]` (rule R85). -/
def argField (w : CommandWord) : BitVec 4 := w.extractLsb' 0 4

/-- TICK: `L = cmd[0]`, with `cmd[3:1]` required to be 0 (rule R87). -/
def decodeTick (arg : BitVec 4) : Except Reserved Instr :=
  if arg.extractLsb' 1 3 = 0#3 then .ok (.tick (arg.getLsbD 0)) else .error .tickArgument

/-- A command without operand: `arg` is required to be 0 (rule R88). -/
def decodePlain (i : Instr) (arg : BitVec 4) : Except Reserved Instr :=
  if arg = 0#4 then .ok i else .error .argument

/-- RDBYTE: `i = cmd[2:0]`, with `cmd[3]` required to be 0 and `i <= 4` (rule R87). -/
def decodeRdbyte (arg : BitVec 4) : Except Reserved Instr :=
  if arg.getLsbD 3 = false ∧ (arg.extractLsb' 0 3).toNat ≤ 4 then .ok (.rdbyte (arg.extractLsb' 0 3))
  else .error .packetIndex

/-- RDSTAT: `k = cmd[3:0]`, with `k <= 9` (rule R87). -/
def decodeRdstat (arg : BitVec 4) : Except Reserved Instr :=
  if arg.toNat ≤ 9 then .ok (.rdstat arg) else .error .selector

/-- The opcode map of rule R89; every word it does not list is reserved (rule R90). -/
def decodeWord (w : CommandWord) : Except Reserved Instr :=
  match (opField w).toNat with
  | 0x1 => decodeTick (argField w)
  | 0x2 => decodePlain .decode (argField w)
  | 0x3 => decodePlain .poll (argField w)
  | 0x4 => decodeRdbyte (argField w)
  | 0x5 => decodePlain .ack (argField w)
  | 0x6 => decodePlain .crc (argField w)
  | 0x7 => decodePlain .valid (argField w)
  | 0x8 => decodePlain .sid (argField w)
  | 0x9 => decodePlain .hum (argField w)
  | 0xA => decodePlain .temp (argField w)
  | 0xE => decodeRdstat (argField w)
  | 0xF => decodePlain .reset (argField w)
  | _ => .error .opcode

/-- The command word of a table word of `nbits` bits: every command is one 8-bit word (rule R85), and every bit above
`nbits` is 0. -/
def tableCommand (nbits w : Nat) : CommandWord := BitVec.ofNat 8 (w % 2 ^ nbits)

/-- What the decoder reads from a word numbered as the opcode table numbers it. -/
def decodeTableWord (nbits w : Nat) : Option Instr :=
  match decodeWord (tableCommand nbits w) with
  | .ok i => some i
  | .error _ => none

/-- `{op, arg}`: the word of an operation and its operand field (rule R85). -/
def commandWord (op arg : BitVec 4) : CommandWord := op ++ arg

/-- The word of a well-formed command (rule R86). -/
def encode : Instr → CommandWord
  | .tick level => commandWord 0x1#4 (0#3 ++ BitVec.ofBool level)
  | .decode => commandWord 0x2#4 0#4
  | .poll => commandWord 0x3#4 0#4
  | .rdbyte i => commandWord 0x4#4 (0#1 ++ i)
  | .ack => commandWord 0x5#4 0#4
  | .crc => commandWord 0x6#4 0#4
  | .valid => commandWord 0x7#4 0#4
  | .sid => commandWord 0x8#4 0#4
  | .hum => commandWord 0x9#4 0#4
  | .temp => commandWord 0xA#4 0#4
  | .rdstat k => commandWord 0xE#4 k
  | .reset => commandWord 0xF#4 0#4

end Sys2Proof
end

