-- ==== Sys2Proof/Config.lean ====
section
/-! DEFINITION. The configuration record of rule R7, its well-formedness (rule R8), the fixed constants, and the one
value the spec leaves unstated, as an opaque constant. -/

namespace Sys2Proof

/-- The implementation parameters of rule R7, fixed for the life of an instance (rule R35). -/
structure Config where
  /-- `HI_MIN`: least width of the logic-1 pulse range, inclusive. -/
  hiMin : Nat
  /-- `HI_MAX`: greatest width of the logic-1 pulse range, inclusive. -/
  hiMax : Nat
  /-- `LO_MIN`: least width of the logic-0 pulse range, inclusive. -/
  loMin : Nat
  /-- `LO_MAX`: greatest width of the logic-0 pulse range, inclusive. -/
  loMax : Nat
  /-- `GAP_MIN`: the minimum gap. -/
  gapMin : Nat
  /-- `GAP_DESYNC`: a gap count at or above it resets the sampler. -/
  gapDesync : Nat
  /-- `TMO_MAX`: the timeout counter exceeding it fires the timeout. -/
  tmoMax : Nat
  /-- `CNT_W`: width of the pulse/idle counter, bits. -/
  cntW : Nat
  /-- `TMO_W`: width of the packet timeout counter, bits. -/
  tmoW : Nat
  /-- `TICK_PERIOD_US`: read by no rule (rule R9). -/
  tickPeriodUs : Nat
  /-- `TEMP_UNIT`: OPEN in the spec (decision D34) and read by no rule (rule R171); `none` where it is not named. -/
  tempUnit : Option String
deriving DecidableEq, Repr

/-- `NBYTES` of rule R7: fixed, not a parameter. -/
abbrev Config.nbytes : Nat := 5

/-- `CRC_POLY` of rule R7: the feedback constant, fixed, not a parameter. -/
abbrev Config.crcPoly : Byte := 0x31#8

/-- The greatest value of the pulse/idle counter, `2^CNT_W - 1` (rules R8, R101). -/
abbrev Config.cntMax (c : Config) : Nat := 2 ^ c.cntW - 1

/-- Rule R8: the three conditions of a well-formed configuration. -/
abbrev Config.wf (c : Config) : Prop :=
  (1 ≤ c.hiMin ∧ c.hiMin ≤ c.hiMax ∧ c.hiMax < c.loMin ∧ c.loMin ≤ c.loMax ∧ c.loMax < c.cntMax) ∧
  (1 ≤ c.gapMin ∧ c.gapMin < c.gapDesync ∧ c.gapDesync ≤ c.cntMax) ∧
  (1 ≤ c.tmoMax ∧ c.tmoMax ≤ 2 ^ c.tmoW - 2)

/-- The reference values of rule R7 (decisions D4 to D9). `TEMP_UNIT` has no reference value (log entry 11). -/
def Config.reference : Config where
  hiMin := 2
  hiMax := 3
  loMin := 7
  loMax := 8
  gapMin := 4
  gapDesync := 7
  tmoMax := 600
  cntW := 8
  tmoW := 16
  tickPeriodUs := 200
  tempUnit := none

/-- DESIGN CHOICE (log entry 7), safe: the result of reading a counter whose value does not fit the 16-bit result bus.
Rule R193 writes `zext_16` of it and no rule says what that is for a value of `2^16` or more, so the result is free. -/
opaque Config.wideStatus (selector width value : Nat) : Result

end Sys2Proof
end

