-- ==== Sys2Proof/Machine/State.lean ====
section
/-! DEFINITION. The state of one block instance as plain data: the record S of rule R10 (10_state.md), the result bus
(rule R14), the instance's configuration (rules R7, R35) and the command words still to be issued (rule R93). -/

namespace Sys2Proof.Machine

/-- `sstate` (rule R20). The 2-bit code 3 is never written and unreachable; the type leaves it out (U12, log entry 5). -/
inductive SamplerState where
  /-- WAIT = 0, "idle/waiting". -/
  | wait
  /-- ACQ = 1, "acquiring-pulse". -/
  | acq
  /-- GAP = 2, "measuring-idle-gap". -/
  | gap
deriving DecidableEq, Repr

/-- `fstate` (rule R25). The 2-bit code 3 is never written and unreachable; the type leaves it out (U12, log entry 5). -/
inductive FrameState where
  /-- IDLE = 0. -/
  | idle
  /-- SEEK = 1, "seeking-preamble". -/
  | seek
  /-- ACC = 2, "accumulating-bits". -/
  | acc
deriving DecidableEq, Repr

/-- The packet buffer's address space (rule R50): cells of strictly rising address, none equal to what an unlisted
address reads as. The form is `Memory.wf` of Machine/Ops.lean (log entry 10). -/
abbrev Memory := List Host.Cell

/-- The record `S` of rule R10: every field of the summary table of 10_state.md. -/
structure Block where
  /-- Rule R20: the sampling state. -/
  sstate : SamplerState
  /-- Rule R21: the pulse/idle counter, an unsigned field of `CNT_W` bits (log entry 6). -/
  cnt : Nat
  /-- Rule R22: WAIT has seen a LOW sample. -/
  wasLow : Bool
  /-- Rule R23: a pulse classification is pending. -/
  evtValid : Bool
  /-- Rule R24: the classified bit value. -/
  evtBit : Bool
  /-- Rule R25: the frame state. -/
  fstate : FrameState
  /-- Rule R26: the bit history. -/
  hist : Byte
  /-- Rule R27: the byte position, 0 to 5; the unreachable 6 and 7 are left out (U13, log entry 5). -/
  bytePos : Fin 6
  /-- Rule R28: the bit position within the current byte. -/
  bitPos : Fin 8
  /-- Rules R29 and R50: the packet buffer `PKT[0..4]`. -/
  mem : Memory
  /-- Rule R30: "packet ready". -/
  pktReady : Bool
  /-- Rule R31: the packet timeout counter, an unsigned field of `TMO_W` bits; 0 is inactive (log entry 6). -/
  tmo : Nat
deriving DecidableEq, Repr

/-- One instance: the record `S`, its configuration, the result bus and its input. -/
structure State where
  /-- The parameters of rule R7, which no command writes (rule R35; log entry 1). -/
  config : Config
  /-- The record `S` of rule R10. -/
  blk : Block
  /-- The result of the last command on the result bus, `none` for a command without one (rule R14; log entry 4). -/
  result : Option Result
  /-- The command words of both domains still to be issued, in the order they take effect (rule R93; log entry 2). -/
  schedule : List CommandWord
deriving DecidableEq, Repr

/-- How a step can stop. -/
inductive Fault where
  /-- DECODE takes an event in ACC with `byte_pos = 5`: `PKT[5]` addresses nothing (rule R50), and no rule gives the
  step an effect. Raised by DECODE only, in states that rule R40 item 3 excludes from every run (log entry 8). Safe. -/
  | noPacketByte
deriving DecidableEq, Repr

/-- Why a step has no meaning (rule R15). -/
inductive Refusal where
  /-- An instruction the model does not give a meaning yet; raised by no arm of exec. Safe. -/
  | notModelled (mnemonic : String)
  /-- A command word that rule R90 reserves; raised by the step. Safe: the spec asks for this refusal. -/
  | reservedWord (why : Reserved)
  /-- A configuration that breaks rule R8; raised by `build`, and by every step (DEDUCED, log entry 9). Safe: the spec asks
  for this refusal. -/
  | illFormedConfiguration
  /-- An RDBYTE term with `i > 4`, whose word is reserved (rules R50, R191); raised by RDBYTE (log entry 9). Safe. -/
  | reservedPacketIndex
  /-- An RDSTAT term with `k > 9`, whose word is reserved (rule R193); raised by RDSTAT (log entry 9). Safe. -/
  | reservedSelector
deriving DecidableEq, Repr

/-- `S0` of rule R41. -/
def Block.reset : Block where
  sstate := .wait
  cnt := 0
  wasLow := false
  evtValid := false
  evtBit := false
  fstate := .idle
  hist := 0x00#8
  bytePos := 0
  bitPos := 0
  mem := []
  pktReady := false
  tmo := 0

/-- An instance with configuration `c` right after power-on: the record is `S0` (rule R250), no command has been
issued (log entries 2 and 4). -/
def State.powerOn (c : Config) : State where
  config := c
  blk := Block.reset
  result := none
  schedule := []

/-- The machine right after reset, with the reference configuration of rule R7 (log entry 1). -/
def State.reset : State := State.powerOn Config.reference

end Sys2Proof.Machine
end

