-- ==== Sys2Proof/Machine/Ops.lean ====
section
/-! DEFINITION. The shared operations: the packet buffer (rules R13, R50), the saturating counter (rule R101), ending a
command with or without a result (rule R14), building an instance (rule R8) and taking the next command (rule R18).
The block has no trap entry and no trap return (rules R227, R228), so no operation stands for one. -/

namespace Sys2Proof.Machine

/-- What an address that the buffer's list does not name reads as: the reset value of every byte (rules R29, R41). -/
def Memory.unlisted (_a : Nat) : Byte := 0x00#8

/-- The byte at address `a`. -/
def Memory.read : Memory → Nat → Byte
  | [], a => Memory.unlisted a
  | (k, v) :: rest, a => if k = a then v else Memory.read rest a

/-- The buffer without any cell at address `a`. -/
def Memory.erase : Memory → Nat → Memory
  | [], _ => []
  | (k, v) :: rest, a => if k = a then Memory.erase rest a else (k, v) :: Memory.erase rest a

/-- The buffer with a cell for address `a` put before the first cell of a greater address. -/
def Memory.insert : Memory → Nat → Byte → Memory
  | [], a, x => [(a, x)]
  | (k, v) :: rest, a, x => if a < k then (a, x) :: (k, v) :: rest else (k, v) :: Memory.insert rest a x

/-- Store `x` at address `a`, keeping the canonical form: the value an unlisted address reads as is not listed. -/
def Memory.write (m : Memory) (a : Nat) (x : Byte) : Memory :=
  if x = Memory.unlisted a then Memory.erase m a else Memory.insert (Memory.erase m a) a x

/-- The canonical form from address `lo` on: addresses rise strictly, exist (rule R50), and no cell holds what an
unlisted address reads as. -/
def Memory.wfFrom : Nat → Memory → Bool
  | _, [] => true
  | lo, (k, v) :: rest => decide (lo ≤ k) && decide (k < Config.nbytes) && decide (v ≠ Memory.unlisted k) &&
      Memory.wfFrom (k + 1) rest

/-- The canonical form of the packet buffer. -/
def Memory.wf (m : Memory) : Bool := Memory.wfFrom 0 m

/-- `MemRead(i, 1)` (rule R13); `none` where the index addresses nothing (rule R50). -/
def memRead (m : Memory) (i : Nat) : Option Byte :=
  if i < Config.nbytes then some (Memory.read m i) else none

/-- `MemWrite(i, 1, x)` (rule R13); `none` where the index addresses nothing (rule R50). -/
def memWrite (m : Memory) (i : Nat) (x : Byte) : Option Memory :=
  if i < Config.nbytes then some (Memory.write m i x) else none

/-- `PKT[0] <- 0; …; PKT[4] <- 0` (rule R133). -/
def clearPacket (m : Memory) : Memory :=
  Memory.write (Memory.write (Memory.write (Memory.write (Memory.write m 0 0#8) 1 0#8) 2 0#8) 3 0#8) 4 0#8

/-- `PKT[i]` of the record. -/
def Block.pkt (b : Block) (i : Nat) : Byte := Memory.read b.mem i

/-- `sat_inc(c)` (rule R101). -/
def satInc (c : Config) (v : Nat) : Nat := if v < c.cntMax then v + 1 else c.cntMax

/-- A command ends: its writes to the record become visible together (rule R57), and its result, or `none`, is on the
result bus (rule R14). -/
def commit (s : State) (b : Block) (r : Option Result) : Host.Outcome State Fault Refusal :=
  .next { s with blk := b, result := r }

/-- Build an instance (rule R8): an ill-formed configuration is refused; else the instance powers on (rule R250). -/
def build (c : Config) : Host.Outcome State Fault Refusal :=
  if c.wf then .next (State.powerOn c) else .refused .illFormedConfiguration

/-- Take the next command word of the schedule (rules R18, R93). -/
def fetch (s : State) : Option (CommandWord × State) :=
  match s.schedule with
  | [] => none
  | w :: rest => some (w, { s with schedule := rest })

/-- The state with command word `w` next in the schedule. -/
def placeCommand (s : State) (w : CommandWord) : State := { s with schedule := w :: s.schedule }

/-- No command is issued: nothing in the block advances (rule R238; DESIGN CHOICE, log entry 3). -/
def noCommand (s : State) : Host.Outcome State Fault Refusal := .next s

end Sys2Proof.Machine
end

