-- ==== Sys2Proof/Machine/Operands.lean ====
section
/-! DEFINITION. Operand and result forms: zero extension and shift-in (rules R11, R14, R53, R55), the state encodings
(decision D24), the packet fields (rule R76) and the status selectors (rule R193). -/

namespace Sys2Proof.Machine

/-- `zext_16(v)` (rules R11, R14). -/
def zext16 {n : Nat} (v : BitVec n) : Result := v.setWidth 16

/-- A 1-bit result, zero-extended (rule R14). -/
def flagResult (b : Bool) : Result := zext16 (BitVec.ofBool b)

/-- `trunc_8((v << 1) | b)`: shift a received bit in at bit 0 (rules R53, R55). -/
def shiftIn (v : Byte) (b : Bool) : Byte := (v <<< 1) ||| (BitVec.ofBool b).setWidth 8

/-- The 2-bit encoding of `sstate` (rule R20). -/
def samplerCode : SamplerState → BitVec 2
  | .wait => 0#2
  | .acq => 1#2
  | .gap => 2#2

/-- The 2-bit encoding of `fstate` (rule R25). -/
def frameCode : FrameState → BitVec 2
  | .idle => 0#2
  | .seek => 1#2
  | .acc => 2#2

/-- `{PKT[0], PKT[1][7:4]}`, the identifier field (rules R54, R163). -/
def idField (b : Block) : BitVec 12 := b.pkt 0 ++ (b.pkt 1).extractLsb' 4 4

/-- `PKT[1][3]`, the temperature sign (rules R76, R165). -/
def signField (b : Block) : Bool := (b.pkt 1).getLsbD 3

/-- `{PKT[1][2:0], PKT[2]}`, the temperature magnitude (rules R54, R165). -/
def magnitudeField (b : Block) : BitVec 11 := (b.pkt 1).extractLsb' 0 3 ++ b.pkt 2

/-- The result of reading the value `v` of a counter of `width` bits through selector `k` (rule R193): `zext_16` of it,
whatever the width, where it fits the 16 bits of the result bus. The spec states no result for a value that does not,
and it is free (DESIGN CHOICE, log entry 7). -/
def counterResult (k width v : Nat) : Result :=
  if v < 2 ^ 16 then BitVec.ofNat 16 v else Config.wideStatus k width v

/-- The status value that RDSTAT selector `k` names (the table of rule R193); `none` for the reserved selectors. -/
def statusValue (c : Config) (b : Block) (k : BitVec 4) : Option Result :=
  match k.toNat with
  | 0 => some (zext16 (samplerCode b.sstate))
  | 1 => some (counterResult 1 c.cntW b.cnt)
  | 2 => some (flagResult b.wasLow)
  | 3 => some (zext16 (BitVec.ofBool b.evtValid ++ BitVec.ofBool b.evtBit))
  | 4 => some (zext16 (frameCode b.fstate))
  | 5 => some (zext16 b.hist)
  | 6 => some (zext16 (BitVec.ofNat 3 b.bytePos.val))
  | 7 => some (zext16 (BitVec.ofNat 3 b.bitPos.val))
  | 8 => some (counterResult 8 c.tmoW b.tmo)
  | 9 => some (flagResult b.pktReady)
  | _ => none

end Sys2Proof.Machine
end

