-- ==== Sys2Proof/Machine/Flags.lean ====
section
/-! DEFINITION. The status flags of rule R33 and every way a command sets or clears one: the event slot (rules R23,
R24, R59), `was_low` (rule R22) and `pkt_ready` (rule R30). The validity flag of VALID is a result and
not stored (rule R33; Machine/Extract.lean). The block has no arithmetic condition codes. -/

namespace Sys2Proof.Machine

/-- A classification writes the event slot, whatever it held (rules R23, R59, R103). -/
def raiseEvent (b : Block) (bit : Bool) : Block := { b with evtValid := true, evtBit := bit }

/-- The take clears `evt_valid`; `evt_bit` keeps its value (rules R24, R131). -/
def takeEvent (b : Block) : Block := { b with evtValid := false }

/-- WAIT has seen a LOW sample (rules R22, R102). -/
def noteLow (b : Block) : Block := { b with wasLow := true }

/-- Leaving WAIT clears `was_low` (rules R22, R102). -/
def forgetLow (b : Block) : Block := { b with wasLow := false }

/-- Completion sets `pkt_ready` (rules R30, R135). -/
def setReady (b : Block) : Block := { b with pktReady := true }

/-- A match and ACK clear `pkt_ready` (rules R30, R133, R192). -/
def clearReady (b : Block) : Block := { b with pktReady := false }

end Sys2Proof.Machine
end

