-- ==== Sys2Proof/Machine/Consumer.lean ====
section
/-! DEFINITION. POLL, RDBYTE, ACK, RDSTAT and RESET: the consumer interface (rules R190 to R194). -/

namespace Sys2Proof.Machine

/-- POLL (rule R190). -/
def execPoll (s : State) : Host.Outcome State Fault Refusal := commit s s.blk (some (flagResult s.blk.pktReady))

/-- RDBYTE i (rule R191); an index above 4 has only reserved words and is refused. -/
def execRdbyte (i : BitVec 3) (s : State) : Host.Outcome State Fault Refusal :=
  match memRead s.blk.mem i.toNat with
  | some v => commit s s.blk (some (zext16 v))
  | none => .refused .reservedPacketIndex

/-- ACK (rule R192). -/
def execAck (s : State) : Host.Outcome State Fault Refusal := commit s (clearReady s.blk) none

/-- RDSTAT k (rule R193); a selector above 9 has only reserved words and is refused. -/
def execRdstat (k : BitVec 4) (s : State) : Host.Outcome State Fault Refusal :=
  match statusValue s.config s.blk k with
  | some v => commit s s.blk (some v)
  | none => .refused .reservedSelector

/-- RESET (rule R194): `S <- S0`; the configuration is unchanged (rule R251). -/
def execReset (s : State) : Host.Outcome State Fault Refusal := commit s Block.reset none

end Sys2Proof.Machine
end

