-- ==== Sys2Proof/Machine/Extract.lean ====
section
/-! DEFINITION. CRC, VALID, SID, HUM and TEMP: pure functions of the packet buffer (rules R160 to R166). -/

namespace Sys2Proof.Machine

/-- `mix <- crc[7] ^ d[k]; crc <- trunc_8(crc << 1); if mix = 1: crc <- crc ^ 0x31` (rule R160). -/
def crcBit (crc : Byte) (bit : Bool) : Byte :=
  if crc.getLsbD 7 ^^ bit then (crc <<< 1) ^^^ Config.crcPoly else crc <<< 1

/-- The bits `k - 1` down to 0 of one byte, most significant first (rule R160). -/
def crcBits (crc d : Byte) : Nat → Byte
  | 0 => crc
  | k + 1 => crcBits (crcBit crc (d.getLsbD k)) d k

/-- One byte, bits 7 down to 0 (rule R160). -/
def crcByte (crc d : Byte) : Byte := crcBits crc d 8

/-- `crc8(d0, d1, d2, d3)` of rule R160, from the initial value 0x00. -/
def crc8 (d0 d1 d2 d3 : Byte) : Byte := crcByte (crcByte (crcByte (crcByte 0x00#8 d0) d1) d2) d3

/-- The checksum of the buffer's bytes 0 to 3 (rule R161). -/
def packetCrc (b : Block) : Byte := crc8 (b.pkt 0) (b.pkt 1) (b.pkt 2) (b.pkt 3)

/-- The validity flag: the computed checksum equals byte 4 (rule R162). -/
def packetValid (b : Block) : Bool := packetCrc b == b.pkt 4

/-- CRC (rule R161). -/
def execCrc (s : State) : Host.Outcome State Fault Refusal := commit s s.blk (some (zext16 (packetCrc s.blk)))

/-- VALID (rule R162). -/
def execValid (s : State) : Host.Outcome State Fault Refusal := commit s s.blk (some (flagResult (packetValid s.blk)))

/-- SID (rule R163). -/
def execSid (s : State) : Host.Outcome State Fault Refusal := commit s s.blk (some (zext16 (idField s.blk)))

/-- HUM (rule R164). -/
def execHum (s : State) : Host.Outcome State Fault Refusal := commit s s.blk (some (zext16 (s.blk.pkt 3)))

/-- The exact signed temperature count: the magnitude, negated when the sign is set (rules R165, R169). -/
def temperature (b : Block) : Int :=
  if signField b then 0 - ((magnitudeField b).toNat : Int) else ((magnitudeField b).toNat : Int)

/-- TEMP (rule R165): `trunc_16` of the exact count, two's complement. -/
def execTemp (s : State) : Host.Outcome State Fault Refusal :=
  commit s s.blk (some (BitVec.ofInt 16 (temperature s.blk)))

end Sys2Proof.Machine
end

