-- ==== Sys2Proof/Machine/Frame.lean ====
section
/-! DEFINITION. DECODE: the take, then one step of the frame machine (rules R130 to R136). -/

namespace Sys2Proof.Machine

/-- The IDLE step: load the sentinel, enter SEEK, arm the timeout (rule R132). -/
def idleStep (b : Block) : Block := { b with hist := 0xFF#8, fstate := .seek, tmo := 1 }

/-- The sync pattern in the three least significant bits of the history (rules R74, R133). -/
def syncMatch (hist : Byte) : Bool := hist.extractLsb' 0 3 == 0b110#3

/-- A match: clear the buffer, start at byte 0 with the reused terminator counted, enter ACC, and withdraw
`pkt_ready` (rule R133). -/
def startFrame (b : Block) : Block :=
  clearReady { b with mem := clearPacket b.mem, bytePos := 0, bitPos := 1, fstate := .acc }

/-- `hist <- trunc_8((hist << 1) | b)` (rules R55, R133). -/
def pushHistory (b : Block) (bit : Bool) : Block := { b with hist := shiftIn b.hist bit }

/-- The SEEK step (rule R133). -/
def seekStep (b : Block) (bit : Bool) : Block :=
  if syncMatch (shiftIn b.hist bit) then startFrame (pushHistory b bit) else pushHistory b bit

/-- Advance the bit position, and the byte position when a byte completes (rule R134). -/
def advancePosition (b : Block) : Block :=
  if b.bitPos = 7 then { b with bitPos := 0, bytePos := b.bytePos + 1 } else { b with bitPos := b.bitPos + 1 }

/-- The ACC step (rule R134): shift the bit into the current byte and advance; `none` where `byte_pos` addresses no
byte of the buffer (log entry 8). -/
def accStep (b : Block) (bit : Bool) : Option Block :=
  match memWrite b.mem b.bytePos.val (shiftIn (b.pkt b.bytePos.val) bit) with
  | none => none
  | some m => some (advancePosition { b with mem := m })

/-- Completion (rule R135): return to IDLE, disarm the timeout, signal "packet ready". -/
def completeFrame (b : Block) : Block := setReady { b with fstate := .idle, tmo := 0 }

/-- The end of a DECODE that ran the ACC step: completion when all five bytes are there (rules R135, R136). -/
def finishAcc (s : State) (b : Block) : Host.Outcome State Fault Refusal :=
  if b.bytePos = 5 then commit s (completeFrame b) (some (flagResult true))
  else commit s b (some (flagResult false))

/-- The frame machine's step on the taken bit; `b` is the record after the take (rules R132 to R135). -/
def frameStep (s : State) (b : Block) (bit : Bool) : Host.Outcome State Fault Refusal :=
  match b.fstate with
  | .idle => commit s (seekStep (idleStep b) bit) (some (flagResult false))
  | .seek => commit s (seekStep b bit) (some (flagResult false))
  | .acc =>
    match accStep b bit with
    | none => .fault .noPacketByte
    | some b' => finishAcc s b'

/-- DECODE (rule R130). -/
def execDecode (s : State) : Host.Outcome State Fault Refusal :=
  if s.blk.evtValid then frameStep s (takeEvent s.blk) s.blk.evtBit
  else commit s s.blk (some (flagResult false))

end Sys2Proof.Machine
end

