-- ==== Sys2Proof/Machine/Tick.lean ====
section
/-! DEFINITION. TICK: the sampler step, then the timeout step (rules R100 to R105). -/

namespace Sys2Proof.Machine

/-- A transition of the sampler: the new state, with `cnt` cleared (rules R21, R102 to R104; decision D11). -/
def enterSampler (b : Block) (st : SamplerState) : Block := { b with sstate := st, cnt := 0 }

/-- `S.cnt <- sat_inc(S.cnt)` (rules R101, R103, R104). -/
def countSample (c : Config) (b : Block) : Block := { b with cnt := satInc c b.cnt }

/-- The WAIT step (rule R102). -/
def waitStep (level : Bool) (b : Block) : Block :=
  if level then
    if b.wasLow then forgetLow (enterSampler b .acq) else b
  else noteLow b

/-- The end of a pulse whose width is the count of `b`: the two inclusive ranges, the logic-1 range first
(rule R103). -/
def classifyPulse (c : Config) (b : Block) : Block :=
  if c.hiMin ≤ b.cnt ∧ b.cnt ≤ c.hiMax then enterSampler (raiseEvent b true) .gap
  else if c.loMin ≤ b.cnt ∧ b.cnt ≤ c.loMax then enterSampler (raiseEvent b false) .gap
  else enterSampler b .wait

/-- The ACQ step: count, then test on a LOW sample (rule R103). -/
def acqStep (c : Config) (level : Bool) (b : Block) : Block :=
  if level then countSample c b else classifyPulse c (countSample c b)

/-- The next HIGH edge in GAP, with the gap's length in the count of `b`: the desynchronisation test first
(rules R104, R230). -/
def endGap (c : Config) (b : Block) : Block :=
  if c.gapDesync ≤ b.cnt then enterSampler b .wait
  else if c.gapMin ≤ b.cnt then enterSampler b .acq
  else b

/-- The GAP step: count, then test on a HIGH sample (rule R104). -/
def gapStep (c : Config) (level : Bool) (b : Block) : Block :=
  if level then endGap c (countSample c b) else countSample c b

/-- `SAMPLER_STEP(L)`, selected by `sstate` (rule R100). -/
def samplerStep (c : Config) (level : Bool) (b : Block) : Block :=
  match b.sstate with
  | .wait => waitStep level b
  | .acq => acqStep c level b
  | .gap => gapStep c level b

/-- `TIMEOUT_STEP()` (rule R105). -/
def timeoutStep (c : Config) (b : Block) : Block :=
  if b.tmo = 0 then b
  else if c.tmoMax < b.tmo + 1 then { b with fstate := .idle, tmo := 0 }
  else { b with tmo := b.tmo + 1 }

/-- TICK L (rule R100). -/
def execTick (level : Bool) (s : State) : Host.Outcome State Fault Refusal :=
  commit s (timeoutStep s.config (samplerStep s.config level s.blk)) none

end Sys2Proof.Machine
end

