-- ==== Sys2Proof/Machine/Dispatch.lean ====
section
/-! DEFINITION. The meaning of every command, one arm each. -/

namespace Sys2Proof.Machine

def exec (i : Instr) (s : State) : Host.Outcome State Fault Refusal :=
  match i with
  | .tick level => Sys2Proof.Machine.execTick level s
  | .decode => Sys2Proof.Machine.execDecode s
  | .poll => Sys2Proof.Machine.execPoll s
  | .rdbyte idx => Sys2Proof.Machine.execRdbyte idx s
  | .ack => Sys2Proof.Machine.execAck s
  | .crc => Sys2Proof.Machine.execCrc s
  | .valid => Sys2Proof.Machine.execValid s
  | .sid => Sys2Proof.Machine.execSid s
  | .hum => Sys2Proof.Machine.execHum s
  | .temp => Sys2Proof.Machine.execTemp s
  | .rdstat k => Sys2Proof.Machine.execRdstat k s
  | .reset => Sys2Proof.Machine.execReset s

end Sys2Proof.Machine
end

