-- ==== Sys2Proof/Machine/Step.lean ====
section
/-! DEFINITION. One step: the next command of the schedule is decoded and executed atomically (rules R6, R57). -/

namespace Sys2Proof.Machine

/-- One step. An ill-formed configuration is refused (rules R8, R15; log entry 9); with no command issued nothing
advances (rule R238; log entry 3); a reserved word is refused (rule R90); every other word runs as its command. -/
def step (s : State) : Host.Outcome State Fault Refusal :=
  if s.config.wf then
    match fetch s with
    | none => noCommand s
    | some (w, s') =>
      match decodeWord w with
      | .ok i => exec i s'
      | .error why => .refused (.reservedWord why)
  else .refused .illFormedConfiguration

/-- `s` with the table word `w` of `nbits` bits issued next: the very next step runs it (log entry 2). -/
def State.withFetchWord (s : State) (nbits w : Nat) : State := placeCommand s (tableCommand nbits w)

end Sys2Proof.Machine
end

