-- ==== Sys2Proof/Machine/Assembler.lean ====
section
/-! DEFINITION. The pseudo-instructions of rule R94: TICKS, SEND, SENDBITS and FRAME, each the sequence of commands it
stands for. -/

namespace Sys2Proof.Machine

/-- `TICKS L, n` (rule R94). -/
def ticks (level : Bool) (n : Nat) : List Instr := List.replicate n (.tick level)

/-- `SEND b` (rule R94): a pulse of minimum accepted width, taken at once, then a minimum gap. -/
def send (c : Config) (bit : Bool) : List Instr :=
  ticks true (if bit then c.hiMin else c.loMin) ++ [.tick false, .decode] ++ ticks false (c.gapMin - 1)

/-- `SENDBITS v, n` (rule R94): `v[n-1]` first. -/
def sendBits {w : Nat} (c : Config) (v : BitVec w) : Nat → List Instr
  | 0 => []
  | n + 1 => send c (v.getLsbD n) ++ sendBits c v n

/-- `FRAME p0,p1,p2,p3,p4` (rule R94). -/
def frame (c : Config) (p0 p1 p2 p3 p4 : Byte) : List Instr :=
  send c true ++ send c true ++ sendBits c p0 8 ++ sendBits c p1 8 ++ sendBits c p2 8 ++ sendBits c p3 8 ++
    sendBits c p4 8

end Sys2Proof.Machine
end

