-- ==== Sys2Proof/Machine/Conditions.lean ====
section
/-! DEFINITION. The error conditions of rules R220 to R225, as a reader's ledger: the block records none of them in any
field (rule R226), and each is handled inside the command that meets it. -/

namespace Sys2Proof.Machine

/-- The identifiers of rules R220 to R225. -/
inductive ErrorCondition where
  /-- ERR_MALFORMED (rule R220). -/
  | malformed
  /-- ERR_DESYNC (rule R221). -/
  | desync
  /-- ERR_NO_PREAMBLE (rule R222). -/
  | noPreamble
  /-- ERR_PKT_TIMEOUT (rule R223). -/
  | pktTimeout
  /-- ERR_CHECKSUM (rule R224). -/
  | checksum
  /-- ERR_EVT_OVERRUN (rule R225). -/
  | evtOverrun
deriving DecidableEq, Repr

/-- The count a TICK tests lies in neither pulse range (rule R220). -/
def widthMalformed (c : Config) (w : Nat) : Bool :=
  !(decide (c.hiMin ≤ w ∧ w ≤ c.hiMax) || decide (c.loMin ≤ w ∧ w ≤ c.loMax))

/-- Whether command `i` meets condition `e` in a state with record `b`, by the rule's *Cause*. ERR_NO_PREAMBLE is a
persistence: the frame machine is in SEEK, and `i` is not a DECODE that takes a 0 bit. -/
def meetsCondition (c : Config) (b : Block) (i : Instr) (e : ErrorCondition) : Bool :=
  match e with
  | .malformed => i == .tick false && b.sstate == .acq && widthMalformed c (satInc c b.cnt)
  | .desync => i == .tick true && b.sstate == .gap && decide (c.gapDesync ≤ satInc c b.cnt)
  | .noPreamble => b.fstate == .seek && !(i == .decode && b.evtValid && !b.evtBit)
  | .pktTimeout => i.domain == .tick && decide (b.tmo ≠ 0) && decide (c.tmoMax < b.tmo + 1)
  | .checksum => i == .valid && !packetValid b
  | .evtOverrun => i == .tick false && b.sstate == .acq && b.evtValid && !widthMalformed c (satInc c b.cnt)

end Sys2Proof.Machine
end

