-- ==== Sys2Proof/Safety.lean ====
section
/-! DEFINITION. What counts as a safe run, in the terms the claims use: runs of commands, the bits a run takes, the
invariants of rule R40, and the strengthening that a step keeps. -/

namespace Sys2Proof.Machine

/-- The commands of a schedule executed in order, stopping at the first that does not answer a next state (rule R93). -/
def execAll : List Instr → State → Host.Outcome State Fault Refusal
  | [], s => .next s
  | i :: rest, s =>
    match exec i s with
    | .next t => execAll rest t
    | .fault r => .fault r
    | .refused r => .refused r

/-- The bit a command takes from the event slot: DECODE with an event pending (rule R131), and no other. -/
def takenBit (i : Instr) (s : State) : List Bool :=
  if i = .decode ∧ s.blk.evtValid = true then [s.blk.evtBit] else []

/-- The bits taken along a run, in order. -/
def takenBits : List Instr → State → List Bool
  | [], _ => []
  | i :: rest, s =>
    takenBit i s ++
      match exec i s with
      | .next t => takenBits rest t
      | .fault _ => []
      | .refused _ => []

/-- Whether a command is a TICK that fires the packet timeout (rule R223). -/
def firesTimeout (i : Instr) (s : State) : Bool := meetsCondition s.config s.blk i .pktTimeout

/-- No TICK of the run fires the packet timeout. -/
def noTimeout : List Instr → State → Bool
  | [], _ => true
  | i :: rest, s =>
    !firesTimeout i s &&
      match exec i s with
      | .next t => noTimeout rest t
      | .fault _ => true
      | .refused _ => true

/-- The low `n` bits of a byte, most significant first: the order of reception (rule R53). -/
def bitsMsbFirst (v : Byte) : Nat → List Bool
  | 0 => []
  | n + 1 => v.getLsbD n :: bitsMsbFirst v n

/-- The 39 bits that follow the terminator in a frame (rule R75). -/
def bitsAfterSync (p0 p1 p2 p3 p4 : Byte) : List Bool :=
  bitsMsbFirst p0 7 ++ bitsMsbFirst p1 8 ++ bitsMsbFirst p2 8 ++ bitsMsbFirst p3 8 ++ bitsMsbFirst p4 8

/-- The command words that rule R90 lists as reserved, in the rule's own ranges. -/
def reservedByR90 (w : CommandWord) : Bool :=
  let n := w.toNat
  decide (n ≤ 0x0F) || decide (0x12 ≤ n ∧ n ≤ 0x1F) || decide (0x21 ≤ n ∧ n ≤ 0x2F) ||
  decide (0x31 ≤ n ∧ n ≤ 0x3F) || decide (0x51 ≤ n ∧ n ≤ 0x5F) || decide (0x61 ≤ n ∧ n ≤ 0x6F) ||
  decide (0x71 ≤ n ∧ n ≤ 0x7F) || decide (0x81 ≤ n ∧ n ≤ 0x8F) || decide (0x91 ≤ n ∧ n ≤ 0x9F) ||
  decide (0xA1 ≤ n ∧ n ≤ 0xAF) || decide (0xF1 ≤ n ∧ n ≤ 0xFF) || decide (0x45 ≤ n ∧ n ≤ 0x4F) ||
  decide (0xB0 ≤ n ∧ n ≤ 0xDF) || decide (0xEA ≤ n ∧ n ≤ 0xEF)

/-- The commands that rule R58 says change no state. -/
def isReader : Instr → Bool
  | .poll | .rdbyte _ | .crc | .valid | .sid | .hum | .temp | .rdstat _ => true
  | .tick _ | .decode | .ack | .reset => false

/-- The pure functions over the packet buffer (rule R166). -/
def isExtractor : Instr → Bool
  | .crc | .valid | .sid | .hum | .temp => true
  | .tick _ | .decode | .poll | .rdbyte _ | .ack | .rdstat _ | .reset => false

/-- The next HIGH sample starts a pulse: WAIT with a LOW sample seen (rule R102), or GAP where that sample's count is
at least `GAP_MIN` and below `GAP_DESYNC` (rule R104). -/
abbrev pulseCanStart (c : Config) (b : Block) : Prop :=
  (b.sstate = .wait ∧ b.wasLow = true) ∨
  (b.sstate = .gap ∧ c.gapMin ≤ satInc c b.cnt ∧ satInc c b.cnt < c.gapDesync)

/-- One step of long division over GF(2) by `x^8 + x^5 + x^4 + 1` (rule R160): the remainder so far, and the next
coefficient of the dividend. -/
def divideStep (r : Byte) (coefficient : Bool) : Byte :=
  let x : BitVec 9 := (r.setWidth 9 <<< 1) ||| (BitVec.ofBool coefficient).setWidth 9
  if x.getLsbD 8 then (x ^^^ 0x131#9).setWidth 8 else x.setWidth 8

/-- The remainder of a polynomial over GF(2), coefficients from the highest power down. -/
def polyRemainder (coefficients : List Bool) : Byte := coefficients.foldl divideStep 0x00#8

/-- Every byte of the packet buffer reads the same in both records. -/
def samePacket (b b' : Block) : Prop := ∀ a : Nat, Memory.read b'.mem a = Memory.read b.mem a

/-- Rule R40, items 1 to 7, of a record under configuration `c` (item 7 holds by the types of the fields). -/
abbrev ruleR40 (c : Config) (b : Block) : Prop :=
  ((b.fstate = .idle ↔ b.tmo = 0) ∧ (b.fstate ≠ .idle → 1 ≤ b.tmo ∧ b.tmo ≤ c.tmoMax)) ∧
  (b.fstate = .seek → b.hist = 0xFF#8) ∧
  (b.fstate = .acc → (b.bytePos.val = 0 ∧ 1 ≤ b.bitPos.val ∧ b.bitPos.val ≤ 7) ∨
    (1 ≤ b.bytePos.val ∧ b.bytePos.val ≤ 4 ∧ b.bitPos.val ≤ 7)) ∧
  (b.pktReady = true → b.fstate ≠ .acc ∧ b.bytePos.val = 5 ∧ b.bitPos.val = 0) ∧
  (b.pkt 0).getLsbD 7 = false ∧
  ((b.sstate = .wait → b.cnt = 0) ∧ (b.sstate ≠ .wait → b.wasLow = false)) ∧
  (b.bytePos.val ≤ 5 ∧ samplerCode b.sstate ≠ 3#2 ∧ frameCode b.fstate ≠ 3#2)

/-- During ACC the current byte holds only the bits already counted, right-aligned, and the bytes after it are 0
(rule R191); byte 0 holds one bit fewer, the terminator's 0 being counted (rule R133). -/
abbrev partialByte (b : Block) : Prop :=
  b.fstate = .acc →
    (b.pkt b.bytePos.val).toNat < 2 ^ b.bitPos.val ∧
    (b.bytePos.val = 0 → 2 * (b.pkt 0).toNat < 2 ^ b.bitPos.val) ∧
    (∀ j : Fin 5, b.bytePos.val < j.val → b.pkt j.val = 0#8)

/-- The invariant of the model: rule R40, the shape of a partial frame, the counters inside their fields (rules R21,
R31), the buffer in canonical form, and a well-formed configuration (rule R8). -/
abbrev State.Inv (s : State) : Prop :=
  s.config.wf ∧ ruleR40 s.config s.blk ∧ partialByte s.blk ∧
  (s.blk.cnt ≤ s.config.cntMax ∧ s.blk.tmo < 2 ^ s.config.tmoW) ∧ Memory.wf s.blk.mem = true

end Sys2Proof.Machine
end

