-- ==== Sys2Proof/Certificates/Slice0/Obligations.lean ====
section
/-! DEFINITION. The statements for the provers. A statement whose docstring says "derived" rests on a sentence that the
spec marks as its own inference, or on a choice of the model that the docstring names. -/

open Sys2Proof Sys2Proof.Machine

/-! ## Reset and configuration -/

/-- Rule R41: the reset state `S0`. -/
def Obligations.ResetLeavesEveryFieldOfS0 : Prop :=
  State.reset.blk.sstate = .wait ∧ State.reset.blk.cnt = 0 ∧ State.reset.blk.wasLow = false ∧
  State.reset.blk.evtValid = false ∧ State.reset.blk.evtBit = false ∧
  State.reset.blk.fstate = .idle ∧ State.reset.blk.hist = 0x00#8 ∧ State.reset.blk.bytePos.val = 0 ∧
  State.reset.blk.bitPos.val = 0 ∧ (∀ i < 5, memRead State.reset.blk.mem i = some 0x00#8) ∧
  State.reset.blk.pktReady = false ∧ State.reset.blk.tmo = 0

/-- Rule R250: an instance of any well-formed configuration powers on in `S0`, with its configuration. -/
def Obligations.PowerOnLeavesS0ForEveryConfiguration : Prop :=
  ∀ c : Config, c.wf → ∃ t, build c = .next t ∧ t.blk = State.reset.blk ∧ t.config = c

/-- Rule R8: the three conditions, what each of them ensures, and the refusal to build an instance with a configuration
that breaks one. The reference values meet all three. -/
def Obligations.IllFormedConfigurationIsRefused : Prop :=
  (∀ c : Config, c.wf ↔
    (1 ≤ c.hiMin ∧ c.hiMin ≤ c.hiMax ∧ c.hiMax < c.loMin ∧ c.loMin ≤ c.loMax ∧ c.loMax + 1 < 2 ^ c.cntW) ∧
    (1 ≤ c.gapMin ∧ c.gapMin < c.gapDesync ∧ c.gapDesync + 1 ≤ 2 ^ c.cntW) ∧
    (1 ≤ c.tmoMax ∧ c.tmoMax + 2 ≤ 2 ^ c.tmoW)) ∧
  (∀ c : Config, ¬ c.wf → build c = .refused .illFormedConfiguration) ∧
  Config.reference.wf ∧
  (∀ c : Config, c.wf → ∀ w : Nat,
    ¬ ((c.hiMin ≤ w ∧ w ≤ c.hiMax) ∧ (c.loMin ≤ w ∧ w ≤ c.loMax)) ∧
    (w = 2 ^ c.cntW - 1 → ¬ (c.hiMin ≤ w ∧ w ≤ c.hiMax) ∧ ¬ (c.loMin ≤ w ∧ w ≤ c.loMax) ∧ c.gapDesync ≤ w) ∧
    (w ≤ c.tmoMax → w < 2 ^ c.tmoW - 1))

/-! ## Encoding and the step -/

/-- Derived (30_encoding.md Part 2; the schedule as the source of commands is log entry 2): a step whose next word
decodes to a command runs that command and moves past the word. -/
def Obligations.StepRunsTheDecodedCommand : Prop :=
  ∀ (s : State) (w : CommandWord) (rest : List CommandWord) (i : Instr),
    s.config.wf → s.schedule = w :: rest → decodeWord w = .ok i →
      WellFormed i ∧ step s = exec i { s with schedule := rest }

/-- Rule R90: the listed words, 230 in all, are exactly the words that are no command, and a step refuses each. -/
def Obligations.StepRefusesTheReservedWords : Prop :=
  (∀ w : CommandWord, reservedByR90 w = true ↔ ∀ i : Instr, decodeWord w ≠ .ok i) ∧
  ((List.range 256).filter fun n => reservedByR90 (BitVec.ofNat 8 n)).length = 230 ∧
  (∀ (s : State) (w : CommandWord) (rest : List CommandWord),
    s.config.wf → s.schedule = w :: rest → reservedByR90 w = true → ∃ why, step s = .refused (.reservedWord why))

/-- Derived (30_encoding.md Part 2): decoding the word of a well-formed command gives the command back, with every
operand at every value its encoding admits. -/
def Obligations.DecodingAnEncodedCommandGivesItBack : Prop :=
  ∀ i : Instr, WellFormed i → decodeWord (encode i) = .ok i

/-- Derived (30_encoding.md Part 2): every word that decodes is the word of the command it decodes to, and that command
is well formed. -/
def Obligations.EncodingADecodedWordGivesItBack : Prop :=
  ∀ (w : CommandWord) (i : Instr), decodeWord w = .ok i → WellFormed i ∧ encode i = w

/-- Derived (30_encoding.md Part 2, the table's words written out): sanity words of every family. -/
def Obligations.WordsOfTheTableDecode : Prop :=
  decodeWord 0b00010001#8 = .ok (.tick true) ∧ decodeWord 0b00100000#8 = .ok .decode ∧
  decodeWord 0b01000011#8 = .ok (.rdbyte 3#3) ∧ decodeWord 0b10100000#8 = .ok .temp ∧
  decodeWord 0b11101000#8 = .ok (.rdstat 8#4) ∧ decodeWord 0b11110000#8 = .ok .reset

/-- Derived (30_encoding.md Part 2 and Part 3; log entry 2): running the machine on the words of a list of commands is
executing the commands in order. -/
def Obligations.RunningEncodedCommandsExecutesThem : Prop :=
  ∀ (commands : List Instr) (rest : List CommandWord) (s : State),
    s.config.wf → (∀ i ∈ commands, WellFormed i) →
      Host.Core.run core commands.length
          ({ s with schedule := commands.map encode ++ rest } : State) =
        execAll commands { s with schedule := rest }

/-- Derived (60_exceptions.md section 9, "If ticks stop, nothing in the block advances"; the model's choice of log
entry 3): with no command issued a step changes nothing. -/
def Obligations.NoCommandNoChange : Prop :=
  ∀ s : State, s.config.wf → s.schedule = [] → step s = .next s

/-! ## TICK -/

/-- Rule R108: TICK has a result for every state and both levels. -/
def Obligations.TickAnswersInEveryState : Prop :=
  ∀ (level : Bool) (s : State), ∃ t, exec (.tick level) s = .next t

/-- Rule R101: the saturating increment. -/
def Obligations.SaturatingIncrementStopsAtItsMaximum : Prop :=
  ∀ (c : Config) (v : Nat),
    (v < 2 ^ c.cntW - 1 → satInc c v = v + 1) ∧ (2 ^ c.cntW - 1 ≤ v → satInc c v = 2 ^ c.cntW - 1)

/-- Rule R102: TICK in WAIT. The last clause: the WAIT step neither reads nor writes the frame state, the event register
or the timeout; the timeout step of the same TICK is what touches `fstate` and `tmo`. -/
def Obligations.TickInWaitLooksForARisingEdge : Prop :=
  ∀ (level : Bool) (s : State), s.blk.sstate = .wait →
    ∃ t, exec (.tick level) s = .next t ∧
      (level = true → s.blk.wasLow = true → t.blk.sstate = .acq ∧ t.blk.cnt = 0 ∧ t.blk.wasLow = false) ∧
      (level = true → s.blk.wasLow = false →
        t.blk.sstate = .wait ∧ t.blk.cnt = s.blk.cnt ∧ t.blk.wasLow = false) ∧
      (level = false → t.blk.sstate = .wait ∧ t.blk.cnt = s.blk.cnt ∧ t.blk.wasLow = true) ∧
      t.blk.evtValid = s.blk.evtValid ∧ t.blk.evtBit = s.blk.evtBit ∧
      (s.blk.tmo = 0 → t.blk.fstate = s.blk.fstate ∧ t.blk.tmo = 0) ∧
      t.blk = timeoutStep s.config (waitStep level s.blk) ∧
      ∀ (f : FrameState) (v e : Bool) (n : Nat),
        waitStep level { s.blk with fstate := f, evtValid := v, evtBit := e, tmo := n } =
          { waitStep level s.blk with fstate := f, evtValid := v, evtBit := e, tmo := n }

/-- Rule R103: TICK in ACQ counts, then classifies on a LOW sample, whatever event was pending. Under a well-formed
configuration no count is in both ranges. -/
def Obligations.TickInAcqCountsAndClassifies : Prop :=
  ∀ (level : Bool) (s : State), s.blk.sstate = .acq →
    ∃ t w, exec (.tick level) s = .next t ∧ w = satInc s.config s.blk.cnt ∧
      (level = true → t.blk.sstate = .acq ∧ t.blk.cnt = w ∧
        t.blk.evtValid = s.blk.evtValid ∧ t.blk.evtBit = s.blk.evtBit) ∧
      (level = false → s.config.hiMin ≤ w ∧ w ≤ s.config.hiMax →
        t.blk.sstate = .gap ∧ t.blk.cnt = 0 ∧ t.blk.evtValid = true ∧ t.blk.evtBit = true) ∧
      (level = false → ¬ (s.config.hiMin ≤ w ∧ w ≤ s.config.hiMax) → s.config.loMin ≤ w ∧ w ≤ s.config.loMax →
        t.blk.sstate = .gap ∧ t.blk.cnt = 0 ∧ t.blk.evtValid = true ∧ t.blk.evtBit = false) ∧
      (level = false → ¬ (s.config.hiMin ≤ w ∧ w ≤ s.config.hiMax) →
        ¬ (s.config.loMin ≤ w ∧ w ≤ s.config.loMax) →
        t.blk.sstate = .wait ∧ t.blk.cnt = 0 ∧ t.blk.evtValid = s.blk.evtValid ∧ t.blk.evtBit = s.blk.evtBit) ∧
      t.blk.wasLow = s.blk.wasLow ∧
      (s.config.wf → ¬ ((s.config.hiMin ≤ w ∧ w ≤ s.config.hiMax) ∧ (s.config.loMin ≤ w ∧ w ≤ s.config.loMax)))

/-- Rule R104: TICK in GAP counts, then tests on a HIGH sample only. -/
def Obligations.TickInGapCountsAndTestsOnHigh : Prop :=
  ∀ (level : Bool) (s : State), s.blk.sstate = .gap →
    ∃ t g, exec (.tick level) s = .next t ∧ g = satInc s.config s.blk.cnt ∧
      (level = false → t.blk.sstate = .gap ∧ t.blk.cnt = g) ∧
      (level = true → s.config.gapDesync ≤ g → t.blk.sstate = .wait ∧ t.blk.cnt = 0) ∧
      (level = true → g < s.config.gapDesync → s.config.gapMin ≤ g → t.blk.sstate = .acq ∧ t.blk.cnt = 0) ∧
      (level = true → g < s.config.gapDesync → g < s.config.gapMin → t.blk.sstate = .gap ∧ t.blk.cnt = g) ∧
      t.blk.wasLow = s.blk.wasLow ∧ t.blk.evtValid = s.blk.evtValid ∧ t.blk.evtBit = s.blk.evtBit

/-- Rule R105: the timeout step of every TICK, whatever the sampler does. -/
def Obligations.TickAdvancesThePacketTimeout : Prop :=
  (∀ (level : Bool) (s : State), ∃ t, exec (.tick level) s = .next t ∧
    t.blk = timeoutStep s.config (samplerStep s.config level s.blk) ∧
    (s.blk.tmo = 0 → t.blk.tmo = 0 ∧ t.blk.fstate = s.blk.fstate) ∧
    (s.blk.tmo ≠ 0 → s.blk.tmo + 1 ≤ s.config.tmoMax → t.blk.tmo = s.blk.tmo + 1 ∧ t.blk.fstate = s.blk.fstate) ∧
    (s.blk.tmo ≠ 0 → s.config.tmoMax < s.blk.tmo + 1 → t.blk.tmo = 0 ∧ t.blk.fstate = .idle)) ∧
  (∀ (c : Config) (b : Block),
    samePacket b (timeoutStep c b) ∧ (timeoutStep c b).pktReady = b.pktReady ∧ (timeoutStep c b).hist = b.hist ∧
    (timeoutStep c b).bytePos = b.bytePos ∧ (timeoutStep c b).bitPos = b.bitPos ∧
    (timeoutStep c b).evtValid = b.evtValid ∧ (timeoutStep c b).evtBit = b.evtBit)

/-- Derived (40_tick.md section 4, "TICK never writes `PKT`, …, and never clears `evt_valid`"): the frame of TICK. -/
def Obligations.TickLeavesTheCooperativeStateAlone : Prop :=
  ∀ (level : Bool) (s : State), ∃ t, exec (.tick level) s = .next t ∧
    samePacket s.blk t.blk ∧ t.blk.pktReady = s.blk.pktReady ∧ t.blk.hist = s.blk.hist ∧
    t.blk.bytePos = s.blk.bytePos ∧ t.blk.bitPos = s.blk.bitPos ∧
    (s.blk.evtValid = true → t.blk.evtValid = true) ∧
    (t.blk.fstate ≠ s.blk.fstate → t.blk.fstate = .idle ∧ firesTimeout (.tick level) s = true) ∧
    t.result = none ∧ t.config = s.config ∧ t.schedule = s.schedule

/-- Derived (40_tick.md section 4, "Their order inside TICK therefore changes no result"). -/
def Obligations.SamplerAndTimeoutStepsCommute : Prop :=
  ∀ (c : Config) (level : Bool) (b : Block),
    timeoutStep c (samplerStep c level b) = samplerStep c level (timeoutStep c b)

/-- Derived (30_encoding.md Part 1 and 40_tick.md section 4, "a pulse of `w` HIGH samples is tested with `cnt = w`"):
a pulse of `w` HIGH samples ended by a LOW sample is a 1, a 0 or malformed by its width alone, for every width. -/
def Obligations.PulseWidthDecidesTheBit : Prop :=
  ∀ (s : State) (w : Nat), s.config.wf → 1 ≤ w → pulseCanStart s.config s.blk →
    ∃ t, execAll (ticks true w ++ [.tick false]) s = .next t ∧ t.blk.cnt = 0 ∧
      (s.config.hiMin ≤ w ∧ w ≤ s.config.hiMax →
        t.blk.sstate = .gap ∧ t.blk.evtValid = true ∧ t.blk.evtBit = true) ∧
      (s.config.loMin ≤ w ∧ w ≤ s.config.loMax →
        t.blk.sstate = .gap ∧ t.blk.evtValid = true ∧ t.blk.evtBit = false) ∧
      (¬ (s.config.hiMin ≤ w ∧ w ≤ s.config.hiMax) → ¬ (s.config.loMin ≤ w ∧ w ≤ s.config.loMax) →
        t.blk.sstate = .wait ∧ t.blk.evtValid = s.blk.evtValid ∧ t.blk.evtBit = s.blk.evtBit)

/-- Derived (30_encoding.md Part 1 and 40_tick.md section 4, the count that GAP tests): after a classification, `n`
further LOW samples and then a HIGH one make a gap of `n + 1` samples, which decides alone, for every length. -/
def Obligations.GapLengthDecidesTheNextState : Prop :=
  ∀ (s : State) (n : Nat), s.config.wf → s.blk.sstate = .gap → s.blk.cnt = 0 →
    ∃ t, execAll (ticks false n ++ [.tick true]) s = .next t ∧
      (s.config.gapDesync ≤ n + 1 → t.blk.sstate = .wait ∧ t.blk.cnt = 0) ∧
      (s.config.gapMin ≤ n + 1 → n + 1 < s.config.gapDesync → t.blk.sstate = .acq ∧ t.blk.cnt = 0) ∧
      (n + 1 < s.config.gapMin → t.blk.sstate = .gap ∧ t.blk.cnt = n + 1) ∧
      t.blk.evtValid = s.blk.evtValid ∧ t.blk.evtBit = s.blk.evtBit

/-- Derived (40_tick.md section 4, "the timeout fires on the `TMO_MAX`-th TICK that follows"): with the counter just
armed, `j` TICKs leave `1 + j` in it and the frame state alone, and the `TMO_MAX`-th TICK fires. -/
def Obligations.TimeoutFiresOnTheLastTickOfItsBudget : Prop :=
  ∀ (s : State) (levels : List Bool), s.blk.tmo = 1 → levels.length ≤ s.config.tmoMax → 1 ≤ s.config.tmoMax →
    ∃ t, execAll (levels.map Instr.tick) s = .next t ∧
      (levels.length < s.config.tmoMax → t.blk.tmo = 1 + levels.length ∧ t.blk.fstate = s.blk.fstate) ∧
      (levels.length = s.config.tmoMax → t.blk.tmo = 0 ∧ t.blk.fstate = .idle)

/-- Derived (40_tick.md section 4, "Two classifications are at least `GAP_MIN + HI_MIN` TICKs apart"): right after a
classification that was taken, no shorter sequence of samples classifies another pulse. -/
def Obligations.ClassificationsAreSpacedApart : Prop :=
  ∀ (s : State) (levels : List Bool), s.config.wf → s.blk.sstate = .gap → s.blk.cnt = 0 → s.blk.evtValid = false →
    levels.length < s.config.gapMin + s.config.hiMin →
      ∃ t, execAll (levels.map Instr.tick) s = .next t ∧ t.blk.evtValid = false

/-! ## DECODE -/

/-- Rule R131: the take. Nothing pending: no change and result 0. An event pending: it is gone after every DECODE that
answers, and `evt_bit` keeps the taken value. -/
def Obligations.DecodeTakesThePendingEvent : Prop :=
  (∀ s : State, s.blk.evtValid = false → exec .decode s = .next { s with result := some 0#16 }) ∧
  (∀ s t : State, s.blk.evtValid = true → exec .decode s = .next t →
    t.blk.evtValid = false ∧ t.blk.evtBit = s.blk.evtBit) ∧
  (∀ s : State, s.blk.evtValid = true → (s.blk.fstate = .acc → s.blk.bytePos.val < 5) →
    ∃ t, exec .decode s = .next t)

/-- Rule R132: DECODE in IDLE loads the sentinel, arms the timeout and goes on to the SEEK step with the same bit. -/
def Obligations.DecodeInIdleStartsASearch : Prop :=
  ∀ s : State, s.blk.evtValid = true → s.blk.fstate = .idle →
    ∃ t, exec .decode s = .next t ∧ t.result = some 0#16 ∧ t.blk.tmo = 1 ∧
      (s.blk.evtBit = true → t.blk.fstate = .seek ∧ t.blk.hist = 0xFF#8 ∧ samePacket s.blk t.blk ∧
        t.blk.bytePos = s.blk.bytePos ∧ t.blk.bitPos = s.blk.bitPos ∧ t.blk.pktReady = s.blk.pktReady) ∧
      (s.blk.evtBit = false → t.blk.fstate = .acc ∧ t.blk.hist = 0xFE#8 ∧
        (∀ a, Memory.read t.blk.mem a = if a < 5 then 0#8 else Memory.read s.blk.mem a) ∧
        t.blk.bytePos.val = 0 ∧ t.blk.bitPos.val = 1 ∧ t.blk.pktReady = false) ∧
      t.blk.evtValid = false ∧ t.blk.evtBit = s.blk.evtBit ∧ t.blk.sstate = s.blk.sstate ∧
      t.blk.cnt = s.blk.cnt ∧ t.blk.wasLow = s.blk.wasLow ∧ t.config = s.config ∧ t.schedule = s.schedule

/-- Rule R133: DECODE in SEEK shifts the bit into the history; the pattern 1, 1, 0 in its three low bits is a match. -/
def Obligations.DecodeInSeekMatchesTheSyncPattern : Prop :=
  ∀ s : State, s.blk.evtValid = true → s.blk.fstate = .seek →
    ∃ t, exec .decode s = .next t ∧ t.result = some 0#16 ∧ t.blk.tmo = s.blk.tmo ∧
      (t.blk.hist.getLsbD 0 = s.blk.evtBit ∧ ∀ k < 7, t.blk.hist.getLsbD (k + 1) = s.blk.hist.getLsbD k) ∧
      (t.blk.hist.getLsbD 2 = true ∧ t.blk.hist.getLsbD 1 = true ∧ t.blk.hist.getLsbD 0 = false →
        t.blk.fstate = .acc ∧
        (∀ a, Memory.read t.blk.mem a = if a < 5 then 0#8 else Memory.read s.blk.mem a) ∧
        t.blk.bytePos.val = 0 ∧ t.blk.bitPos.val = 1 ∧ t.blk.pktReady = false) ∧
      (¬ (t.blk.hist.getLsbD 2 = true ∧ t.blk.hist.getLsbD 1 = true ∧ t.blk.hist.getLsbD 0 = false) →
        t.blk.fstate = .seek ∧ samePacket s.blk t.blk ∧ t.blk.bytePos = s.blk.bytePos ∧
        t.blk.bitPos = s.blk.bitPos ∧ t.blk.pktReady = s.blk.pktReady) ∧
      t.blk.evtValid = false ∧ t.blk.evtBit = s.blk.evtBit ∧ t.blk.sstate = s.blk.sstate ∧
      t.blk.cnt = s.blk.cnt ∧ t.blk.wasLow = s.blk.wasLow ∧ t.config = s.config ∧ t.schedule = s.schedule

/-- Rule R134: DECODE in ACC shifts the bit into the current byte, most significant bit first, and advances the
position: one further bit of the forty each time, so that the seventh ACC step after a match completes byte 0. The frame:
every other byte, the history (rule R140), the sampler and the event bit. -/
def Obligations.DecodeInAccShiftsTheBitIn : Prop :=
  ∀ s : State, s.blk.evtValid = true → s.blk.fstate = .acc → s.blk.bytePos.val < 5 →
    ∃ t, exec .decode s = .next t ∧
      ((t.blk.pkt s.blk.bytePos.val).getLsbD 0 = s.blk.evtBit ∧
        ∀ k < 7, (t.blk.pkt s.blk.bytePos.val).getLsbD (k + 1) = (s.blk.pkt s.blk.bytePos.val).getLsbD k) ∧
      (∀ a, a ≠ s.blk.bytePos.val → Memory.read t.blk.mem a = Memory.read s.blk.mem a) ∧
      (s.blk.bitPos.val = 7 → t.blk.bitPos.val = 0 ∧ t.blk.bytePos.val = s.blk.bytePos.val + 1) ∧
      (s.blk.bitPos.val ≠ 7 → t.blk.bitPos.val = s.blk.bitPos.val + 1 ∧ t.blk.bytePos = s.blk.bytePos) ∧
      8 * t.blk.bytePos.val + t.blk.bitPos.val = 8 * s.blk.bytePos.val + s.blk.bitPos.val + 1 ∧
      t.blk.hist = s.blk.hist ∧ t.blk.evtValid = false ∧ t.blk.evtBit = s.blk.evtBit ∧
      t.blk.sstate = s.blk.sstate ∧ t.blk.cnt = s.blk.cnt ∧ t.blk.wasLow = s.blk.wasLow ∧
      t.config = s.config ∧ t.schedule = s.schedule

/-- Rule R135: the ACC step that leaves `byte_pos = 5` completes the packet; an earlier one leaves the frame state, the
timeout and `pkt_ready` alone. From then on the buffer and both positions stay, command by command, until a DECODE that
takes an event and enters ACC (a match), or RESET. -/
def Obligations.DecodeCompletesAfterTheFifthByte : Prop :=
  (∀ s : State, s.blk.evtValid = true → s.blk.fstate = .acc → s.blk.bytePos.val < 5 →
    ∃ t, exec .decode s = .next t ∧
      (t.blk.bytePos.val = 5 ↔ s.blk.bytePos.val = 4 ∧ s.blk.bitPos.val = 7) ∧
      (t.blk.bytePos.val = 5 → t.blk.bitPos.val = 0 ∧ t.blk.fstate = .idle ∧ t.blk.tmo = 0 ∧
        t.blk.pktReady = true ∧ t.result = some 1#16) ∧
      (t.blk.bytePos.val ≠ 5 → t.blk.fstate = .acc ∧ t.blk.tmo = s.blk.tmo ∧
        t.blk.pktReady = s.blk.pktReady ∧ t.result = some 0#16)) ∧
  (∀ (i : Instr) (s t : State), s.blk.bytePos.val = 5 → exec i s = .next t → i ≠ .reset →
    ¬ (i = .decode ∧ s.blk.evtValid = true ∧ t.blk.fstate = .acc) →
      t.blk.bytePos = s.blk.bytePos ∧ t.blk.bitPos = s.blk.bitPos ∧ samePacket s.blk t.blk)

/-- Rule R136: DECODE's result is 1 exactly when it performed a completion, and 0 otherwise. -/
def Obligations.DecodeResultTellsACompletion : Prop :=
  ∀ s t : State, exec .decode s = .next t →
    (s.blk.evtValid = true ∧ s.blk.fstate = .acc ∧ t.blk.bytePos.val = 5 → t.result = some 1#16) ∧
    (¬ (s.blk.evtValid = true ∧ s.blk.fstate = .acc ∧ t.blk.bytePos.val = 5) → t.result = some 0#16)

/-- Derived (20_memory.md section 1, "Index values 5, 6 and 7 address nothing"; the model's choice of log entry 8): the
one stop of DECODE, in a state that no run reaches. -/
def Obligations.DecodeStopsWhereNoByteIsAddressed : Prop :=
  ∀ s : State, s.blk.evtValid = true → s.blk.fstate = .acc → s.blk.bytePos.val = 5 →
    exec .decode s = .fault .noPacketByte

/-- Derived (41_decode.md section 3, the paragraph that begins "Let `p0..p4` be five bytes"): whatever TICKs and other
commands lie between, the frame's bits taken in order without a timeout or a RESET give the packet, and the DECODE that
takes the last bit completes it. -/
def Obligations.TheBitsOfAFrameDecodeToItsPacket : Prop :=
  ∀ (s u : State) (run : List Instr) (m : Nat) (p0 p1 p2 p3 p4 : Byte),
    s.Inv → s.blk.fstate ≠ .acc → p0.getLsbD 7 = false → .reset ∉ run →
    execAll run s = .next u → u.blk.evtValid = true → noTimeout run s = true →
    takenBits run s ++ [u.blk.evtBit] =
      List.replicate m true ++ false :: bitsAfterSync p0 p1 p2 p3 p4 →
      ∃ t, exec .decode u = .next t ∧ t.result = some 1#16 ∧
        t.blk.pkt 0 = p0 ∧ t.blk.pkt 1 = p1 ∧ t.blk.pkt 2 = p2 ∧ t.blk.pkt 3 = p3 ∧ t.blk.pkt 4 = p4 ∧
        t.blk.pktReady = true ∧ t.blk.fstate = .idle ∧ t.blk.tmo = 0

/-- Derived (41_decode.md section 3, corner case "Timeout and completion racing"): the TICK that fires the timeout and
the DECODE that would complete the packet, in both orders. -/
def Obligations.TimeoutAndCompletionRaceBothWays : Prop :=
  ∀ (s : State) (level : Bool), s.Inv → s.blk.fstate = .acc → s.blk.bytePos.val = 4 → s.blk.bitPos.val = 7 →
    s.blk.evtValid = true → s.blk.sstate ≠ .acq → s.blk.tmo = s.config.tmoMax →
    (∃ t, execAll [.tick level, .decode] s = .next t ∧ t.result = some 0#16 ∧ t.blk.tmo = 1 ∧
      t.blk.pktReady = false ∧
      (s.blk.evtBit = true → t.blk.fstate = .seek ∧ samePacket s.blk t.blk) ∧
      (s.blk.evtBit = false → t.blk.fstate = .acc ∧ ∀ i < 5, t.blk.pkt i = 0#8)) ∧
    (∃ t, execAll [.decode, .tick level] s = .next t ∧ t.blk.fstate = .idle ∧ t.blk.tmo = 0 ∧
      t.blk.pktReady = true ∧ t.blk.pkt 4 = shiftIn (s.blk.pkt 4) s.blk.evtBit)

/-! ## CRC, VALID, SID, HUM, TEMP -/

/-- Rule R161: CRC. -/
def Obligations.CrcAnswersTheChecksumOfTheHeader : Prop :=
  encode .crc = 0x60#8 ∧
  (∀ (s : State) (v : Byte), v = crc8 (s.blk.pkt 0) (s.blk.pkt 1) (s.blk.pkt 2) (s.blk.pkt 3) →
    exec .crc s = .next { s with result := some (v.setWidth 16) }) ∧
  crc8 0 0 0 0 = 0x00#8 ∧ crc8 0x01#8 0x23#8 0x45#8 0x32#8 = 0x71#8

/-- Derived (42_validate_extract.md section 1, "The function is the CRC with generator polynomial
`x^8 + x^5 + x^4 + 1`"): the checksum is the remainder of the four bytes, followed by eight 0 coefficients, on long
division by that polynomial. -/
def Obligations.ChecksumIsThePolynomialRemainder : Prop :=
  ∀ d0 d1 d2 d3 : Byte, crc8 d0 d1 d2 d3 =
    polyRemainder (bitsMsbFirst d0 8 ++ bitsMsbFirst d1 8 ++ bitsMsbFirst d2 8 ++ bitsMsbFirst d3 8 ++
      List.replicate 8 false)

/-- Derived (42_validate_extract.md section 3, "`crc8` is linear over XOR"). -/
def Obligations.ChecksumIsLinearOverXor : Prop :=
  ∀ a0 a1 a2 a3 b0 b1 b2 b3 : Byte,
    crc8 (a0 ^^^ b0) (a1 ^^^ b1) (a2 ^^^ b2) (a3 ^^^ b3) = crc8 a0 a1 a2 a3 ^^^ crc8 b0 b1 b2 b3

/-- Derived (42_validate_extract.md section 3, "Any single-bit change to the four checksummed bytes changes `crc8`"):
in the machine's terms, VALID tells every packet with a right checksum from the same packet with one bit of bytes 0 to
3 flipped. -/
def Obligations.ValidDetectsEverySingleBitFlip : Prop :=
  ∀ (s s' : State) (i k : Nat), i < 4 → k < 8 → exec .valid s = .next { s with result := some 1#16 } →
    s'.blk.pkt i = s.blk.pkt i ^^^ BitVec.twoPow 8 k →
    (∀ a < 5, a ≠ i → s'.blk.pkt a = s.blk.pkt a) →
      exec .valid s' = .next { s' with result := some 0#16 }

/-- Rule R162: VALID, and rule R224: a mismatch is the result 0 and leaves the state and the packet as they are. -/
def Obligations.ValidComparesChecksumAndTrailer : Prop :=
  encode .valid = 0x70#8 ∧
  (∀ s : State,
    (crc8 (s.blk.pkt 0) (s.blk.pkt 1) (s.blk.pkt 2) (s.blk.pkt 3) = s.blk.pkt 4 →
      exec .valid s = .next { s with result := some 1#16 }) ∧
    (crc8 (s.blk.pkt 0) (s.blk.pkt 1) (s.blk.pkt 2) (s.blk.pkt 3) ≠ s.blk.pkt 4 →
      exec .valid s = .next { s with result := some 0#16 })) ∧
  exec .valid State.reset = .next { State.reset with result := some 1#16 } ∧
  crc8 0x01#8 0x23#8 0x45#8 0x32#8 = 0x71#8

/-- Rule R163: SID is the 12-bit value `{PKT[0], PKT[1][7:4]}`, at most 0x7FF where byte 0 has bit 7 clear. -/
def Obligations.SidAnswersTheTwelveBitIdentifier : Prop :=
  encode .sid = 0x80#8 ∧
  ∀ s : State, ∃ v : BitVec 16, exec .sid s = .next { s with result := some v } ∧
    v.toNat = (s.blk.pkt 0).toNat * 16 + (s.blk.pkt 1).toNat / 16 ∧ v.toNat ≤ 0xFFF ∧
    ((s.blk.pkt 0).getLsbD 7 = false → v.toNat ≤ 0x7FF) ∧
    (s.blk.pkt 0 = 0x81#8 → s.blk.pkt 1 = 0x23#8 → v = 0x812#16)

/-- Rule R164: HUM is byte 3 as it stands. -/
def Obligations.HumAnswersByteThree : Prop :=
  encode .hum = 0x90#8 ∧
  ∀ s : State, ∃ v : BitVec 16, exec .hum s = .next { s with result := some v } ∧ v.toNat = (s.blk.pkt 3).toNat ∧
    (s.blk.pkt 3 = 0x32#8 → v = 50#16)

/-- Rule R165: TEMP is the 11-bit magnitude, negated when bit 3 of byte 1 is set, in 16-bit two's complement. -/
def Obligations.TempAnswersTheSignedMagnitude : Prop :=
  encode .temp = 0xA0#8 ∧
  ∀ s : State, ∃ v : BitVec 16, exec .temp s = .next { s with result := some v } ∧
    ((s.blk.pkt 1).getLsbD 3 = true →
      v.toInt = -(((s.blk.pkt 1).toNat % 8 * 256 + (s.blk.pkt 2).toNat : Nat) : Int)) ∧
    ((s.blk.pkt 1).getLsbD 3 = false →
      v.toInt = (((s.blk.pkt 1).toNat % 8 * 256 + (s.blk.pkt 2).toNat : Nat) : Int)) ∧
    -2047 ≤ v.toInt ∧ v.toInt ≤ 2047 ∧
    ((s.blk.pkt 1).toNat % 16 = 8 → s.blk.pkt 2 = 0#8 → v = 0#16) ∧
    (s.blk.pkt 1 = 0x23#8 → s.blk.pkt 2 = 0x45#8 → v = 837#16)

/-- Rule R166: the five pure functions write nothing and answer the same result whenever the buffer holds the same
bytes, whatever the rest of the state. -/
def Obligations.ExtractorsDependOnThePacketAlone : Prop :=
  ∀ (i : Instr) (s s' : State), isExtractor i = true → (∀ a < 5, s'.blk.pkt a = s.blk.pkt a) →
    ∃ r, exec i s = .next { s with result := some r } ∧ exec i s' = .next { s' with result := some r }

/-- Rule R58: the reading commands change no state and can be repeated with the same result; DECODE's read of a pending
event clears it. -/
def Obligations.ReadersChangeNoState : Prop :=
  (∀ (i : Instr) (s t : State), isReader i = true → exec i s = .next t →
    t.blk = s.blk ∧ t.config = s.config ∧ t.schedule = s.schedule ∧ t.result.isSome = true ∧ exec i t = .next t) ∧
  (∀ s t : State, s.blk.evtValid = true → exec .decode s = .next t → t.blk.evtValid = false)

/-! ## POLL, RDBYTE, ACK, RDSTAT, RESET -/

/-- Rule R190: POLL reads the flag and does not clear it; only DECODE, ACK and RESET change it. -/
def Obligations.PollAnswersTheReadyFlag : Prop :=
  encode .poll = 0x30#8 ∧
  (∀ s : State, exec .poll s = .next { s with result := some (if s.blk.pktReady then 1#16 else 0#16) }) ∧
  (∀ s t : State, exec .decode s = .next t → t.result = some 1#16 →
    exec .poll t = .next { t with result := some 1#16 }) ∧
  (∀ (i : Instr) (s t : State), exec i s = .next t → i ≠ .decode → i ≠ .ack → i ≠ .reset →
    t.blk.pktReady = s.blk.pktReady)

/-- Rule R191: RDBYTE reads one byte of the buffer in every state, and the words of a larger index are reserved; during
ACC the current byte is partial and right-aligned, and the bytes after it are 0. -/
def Obligations.RdbyteAnswersOneByteOfThePacket : Prop :=
  (∀ i : BitVec 3, encode (.rdbyte i) = 0x40#8 ||| i.setWidth 8) ∧
  (∀ n, 0x45 ≤ n → n ≤ 0x4F → ∃ why, decodeWord (BitVec.ofNat 8 n) = .error why) ∧
  (∀ (i : BitVec 3) (s : State), i.toNat ≤ 4 →
    exec (.rdbyte i) s = .next { s with result := some ((s.blk.pkt i.toNat).setWidth 16) }) ∧
  (∀ s : State, s.Inv → s.blk.fstate = .acc → (s.blk.pkt s.blk.bytePos.val).toNat < 2 ^ s.blk.bitPos.val ∧
    ∀ j, s.blk.bytePos.val < j → j < 5 → s.blk.pkt j = 0#8)

/-- Derived (43_consumer.md, the reserved words of RDBYTE and RDSTAT; the model's choice of log entry 9): the terms
whose words are reserved are refused by name. -/
def Obligations.ReservedOperandsAreRefused : Prop :=
  (∀ (i : BitVec 3) (s : State), 4 < i.toNat → exec (.rdbyte i) s = .refused .reservedPacketIndex) ∧
  (∀ (k : BitVec 4) (s : State), 9 < k.toNat → exec (.rdstat k) s = .refused .reservedSelector)

/-- Rule R192: ACK clears `pkt_ready` and nothing else. -/
def Obligations.AckClearsTheReadyFlag : Prop :=
  encode .ack = 0x50#8 ∧
  (∀ s : State, exec .ack s = .next { s with blk := { s.blk with pktReady := false }, result := none }) ∧
  (∀ s t : State, exec .ack s = .next t → samePacket s.blk t.blk ∧ exec .poll t = .next { t with result := some 0#16 })

/-- Rule R193: RDSTAT answers the selected field and changes nothing. The two counters are stated at every width, where
their value fits the 16 bits of the result bus; the spec states no result for a value that does not (log entry 7). -/
def Obligations.RdstatAnswersTheSelectedField : Prop :=
  (∀ k : BitVec 4, encode (.rdstat k) = 0xE0#8 ||| k.setWidth 8) ∧
  (∀ n, 0xEA ≤ n → n ≤ 0xEF → ∃ why, decodeWord (BitVec.ofNat 8 n) = .error why) ∧
  (∀ s : State,
    (s.blk.sstate = .wait → exec (.rdstat 0) s = .next { s with result := some 0#16 }) ∧
    (s.blk.sstate = .acq → exec (.rdstat 0) s = .next { s with result := some 1#16 }) ∧
    (s.blk.sstate = .gap → exec (.rdstat 0) s = .next { s with result := some 2#16 }) ∧
    (s.blk.cnt < 2 ^ 16 → exec (.rdstat 1) s = .next { s with result := some (BitVec.ofNat 16 s.blk.cnt) }) ∧
    exec (.rdstat 2) s = .next { s with result := some (if s.blk.wasLow then 1#16 else 0#16) } ∧
    exec (.rdstat 3) s = .next { s with result := some (BitVec.ofNat 16 (2 * s.blk.evtValid.toNat + s.blk.evtBit.toNat)) } ∧
    (s.blk.fstate = .idle → exec (.rdstat 4) s = .next { s with result := some 0#16 }) ∧
    (s.blk.fstate = .seek → exec (.rdstat 4) s = .next { s with result := some 1#16 }) ∧
    (s.blk.fstate = .acc → exec (.rdstat 4) s = .next { s with result := some 2#16 }) ∧
    exec (.rdstat 5) s = .next { s with result := some (s.blk.hist.setWidth 16) } ∧
    exec (.rdstat 6) s = .next { s with result := some (BitVec.ofNat 16 s.blk.bytePos.val) } ∧
    exec (.rdstat 7) s = .next { s with result := some (BitVec.ofNat 16 s.blk.bitPos.val) } ∧
    (s.blk.tmo < 2 ^ 16 → exec (.rdstat 8) s = .next { s with result := some (BitVec.ofNat 16 s.blk.tmo) }) ∧
    exec (.rdstat 9) s = .next { s with result := some (if s.blk.pktReady then 1#16 else 0#16) })

/-- Derived (43_consumer.md, the status table; a counter value that does not fit the result bus is the model's choice of
log entry 7): RDSTAT answers some value for every selector and every counter, changing nothing but the result. In
invariant states a counter of at most 16 bits always fits. -/
def Obligations.RdstatAnswersForEveryCounterWidth : Prop :=
  (∀ (k : BitVec 4) (s : State), k.toNat ≤ 9 → ∃ v, exec (.rdstat k) s = .next { s with result := some v }) ∧
  (∀ s : State, s.Inv →
    (s.config.cntW ≤ 16 → s.blk.cnt < 2 ^ 16) ∧ (s.config.tmoW ≤ 16 → s.blk.tmo < 2 ^ 16))

/-- Rule R194: RESET gives every field of the record its value in `S0` and leaves the configuration; RDSTAT 8 after it
returns 0, whatever the width of the counter. -/
def Obligations.ResetCommandLoadsS0 : Prop :=
  encode .reset = 0xF0#8 ∧
  (∀ s : State, exec .reset s = .next { s with blk := State.reset.blk, result := none }) ∧
  (∀ s : State, ∃ t, execAll [.reset, .rdstat 8] s = .next t ∧ t.result = some 0#16 ∧ t.config = s.config)

/-! ## The whole machine -/

/-- The model's invariant holds right after power-on with every well-formed configuration, and at reset. Derived
(10_state.md section 10; the strengthening by partial bytes and counter ranges is the model's). -/
def Obligations.PowerOnStatesSatisfyTheInvariant : Prop :=
  State.reset.Inv ∧ ∀ c : Config, c.wf → (State.powerOn c).Inv

/-- Derived (10_state.md section 10): every step keeps the invariant. -/
def Obligations.EveryStepKeepsTheInvariant : Prop :=
  ∀ s t : State, s.Inv → step s = .next t → t.Inv

/-- Derived (10_state.md section 10, "Every state reachable from reset …"): every state that any schedule reaches from
power-on, with any well-formed configuration, satisfies the seven invariants. -/
def Obligations.ReachableStatesSatisfyTheSevenInvariants : Prop :=
  ∀ (c : Config) (schedule : List CommandWord) (k : Nat) (t : State), c.wf →
    Host.Core.run core k ({ State.powerOn c with schedule := schedule } : State) = .next t →
      t.config = c ∧ ruleR40 c t.blk

/-- Rule R15: no command is stuck and none faults; a step refuses only a reserved word or an ill-formed configuration. -/
def Obligations.NoWellFormedCommandIsStuck : Prop :=
  (∀ (i : Instr) (s : State), s.Inv → WellFormed i → ∃ t, exec i s = .next t) ∧
  (∀ (s : State) (f : Fault), s.Inv → step s ≠ .fault f) ∧
  (∀ (s : State) (r : Refusal), step s = .refused r →
    (∃ w rest why, s.schedule = w :: rest ∧ reservedByR90 w = true ∧ r = .reservedWord why) ∨
    (¬ s.config.wf ∧ r = .illFormedConfiguration))

/-- Derived (10_state.md section 6, "No command reads or writes them as state"): no step changes the configuration. -/
def Obligations.NoStepChangesTheConfiguration : Prop :=
  ∀ s t : State, step s = .next t → t.config = s.config

/-- Derived (10_state.md section 7 and 20_memory.md section 1): which domain writes which field, RESET apart. -/
def Obligations.EachDomainWritesOnlyItsOwnFields : Prop :=
  ∀ (i : Instr) (s t : State), i ≠ .reset → exec i s = .next t →
    (i.domain = .cooperative → t.blk.sstate = s.blk.sstate ∧ t.blk.cnt = s.blk.cnt ∧
      t.blk.wasLow = s.blk.wasLow ∧ t.blk.evtBit = s.blk.evtBit ∧
      (t.blk.evtValid = true → s.blk.evtValid = true)) ∧
    (i.domain = .tick → t.blk.hist = s.blk.hist ∧ t.blk.bytePos = s.blk.bytePos ∧
      t.blk.bitPos = s.blk.bitPos ∧ t.blk.pktReady = s.blk.pktReady ∧
      (s.blk.evtValid = true → t.blk.evtValid = true)) ∧
    (i ≠ .decode → samePacket s.blk t.blk) ∧
    (i ≠ .decode → i.domain = .cooperative → t.blk.fstate = s.blk.fstate ∧ t.blk.tmo = s.blk.tmo ∧
      t.blk.hist = s.blk.hist ∧ t.blk.bytePos = s.blk.bytePos ∧ t.blk.bitPos = s.blk.bitPos ∧
      t.blk.evtValid = s.blk.evtValid ∧ (i ≠ .ack → t.blk.pktReady = s.blk.pktReady))

/-- Derived (20_memory.md section 5): a completed packet and its ready flag stay, command by command, until a match, an
ACK or a RESET; an ACK clears only the flag. -/
def Obligations.CompletedPacketStaysUntilAMatch : Prop :=
  ∀ (i : Instr) (s t : State), s.Inv → s.blk.pktReady = true → i ≠ .reset → exec i s = .next t →
    (t.blk.fstate ≠ .acc → samePacket s.blk t.blk ∧ (i ≠ .ack → t.blk.pktReady = true)) ∧
    (t.blk.fstate = .acc → i = .decode ∧ s.blk.evtValid = true ∧ s.blk.evtBit = false ∧ t.blk.pktReady = false)

/-- Rules R220 to R225: every error condition is handled inside the command that meets it, with the effect of its rule
and no other; the timeout step of the same TICK runs as always (rule R105). -/
def Obligations.ErrorConditionsAreHandledInTheirCommand : Prop :=
  ∀ (i : Instr) (s : State), s.Inv → WellFormed i → ∃ t, exec i s = .next t ∧
    (meetsCondition s.config s.blk i .malformed = true →
      t.blk = timeoutStep s.config { s.blk with sstate := .wait, cnt := 0 }) ∧
    (meetsCondition s.config s.blk i .desync = true →
      t.blk = timeoutStep s.config { s.blk with sstate := .wait, cnt := 0 } ∧
      (meetsCondition s.config s.blk i .pktTimeout = false → t.blk.fstate = s.blk.fstate)) ∧
    (meetsCondition s.config s.blk i .noPreamble = true → i ≠ .reset →
      meetsCondition s.config s.blk i .pktTimeout = false → t.blk.fstate = .seek) ∧
    (meetsCondition s.config s.blk i .pktTimeout = true →
      (∃ level, i = .tick level ∧ t.blk = { samplerStep s.config level s.blk with fstate := .idle, tmo := 0 }) ∧
      (t.blk.evtValid = true → ∃ u, exec .decode t = .next u ∧ u.blk.fstate ≠ .idle ∧ u.blk.tmo = 1)) ∧
    (meetsCondition s.config s.blk i .checksum = true → t.blk = s.blk ∧ t.result = some 0#16) ∧
    (meetsCondition s.config s.blk i .evtOverrun = true → t.blk = timeoutStep s.config
      { s.blk with
        sstate := .gap, cnt := 0, evtValid := true
        evtBit := decide (satInc s.config s.blk.cnt ≤ s.config.hiMax) })

/-! ## The pseudo-instructions -/

/-- Derived (30_encoding.md Part 3, "`SEND b` leaves the sampler in GAP with `cnt = GAP_MIN - 1`"): SEND delivers one
bit to the frame machine and leaves the sampler ready for the next SEND. -/
def Obligations.SendDeliversOneBit : Prop :=
  ∀ (s : State) (bit : Bool), s.Inv → pulseCanStart s.config s.blk →
    ∃ t, execAll (send s.config bit) s = .next t ∧ takenBits (send s.config bit) s = [bit] ∧
      t.blk.sstate = .gap ∧ t.blk.cnt + 1 = s.config.gapMin ∧ t.blk.evtValid = false ∧
      pulseCanStart t.config t.blk

/-- Derived (30_encoding.md Part 3, "`FRAME` reproduces `p0..p4` in the buffer exactly when `p0[7] = 0`"): sent from
IDLE with a timeout budget above the frame's length, pulse by pulse through the sampler. -/
def Obligations.FrameReproducesItsPacket : Prop :=
  ∀ (s : State) (p0 p1 p2 p3 p4 : Byte), s.Inv → s.blk.fstate = .idle → pulseCanStart s.config s.blk →
    41 * (s.config.loMin + s.config.gapMin) < s.config.tmoMax →
    ∃ t, execAll (frame s.config p0 p1 p2 p3 p4) s = .next t ∧
      ((t.blk.pkt 0 = p0 ∧ t.blk.pkt 1 = p1 ∧ t.blk.pkt 2 = p2 ∧ t.blk.pkt 3 = p3 ∧ t.blk.pkt 4 = p4) ↔
        p0.getLsbD 7 = false) ∧
      (p0.getLsbD 7 = false → t.blk.pktReady = true ∧ t.blk.fstate = .idle ∧ t.blk.tmo = 0)

/-! ## Reset observed, and the refusal of a step -/

/-- Derived (70_reset_and_hazards.md section 1, "After reset, `POLL` returns 0, …"): whatever the state and the
configuration were, POLL, RDSTAT 4 and RDSTAT 8 right after RESET, and right after power-on, each return 0, and no event
is pending for DECODE. -/
def Obligations.AfterResetTheReadingsAreZero : Prop :=
  ∀ (i : Instr), i = .poll ∨ i = .rdstat 4 ∨ i = .rdstat 8 ∨ i = .decode →
    (∀ s : State, ∃ t, execAll [.reset, i] s = .next t ∧ t.result = some 0#16 ∧ t.blk = State.reset.blk) ∧
    (∀ c : Config, ∃ t, exec i (State.powerOn c) = .next t ∧ t.result = some 0#16 ∧ t.blk = State.reset.blk)

/-- Derived (00_scope.md section 4, the refusal of an ill-formed configuration as an outcome of a step; that every step,
and not the building alone, refuses it is the model's reading of log entry 9). -/
def Obligations.StepRefusesAnIllFormedConfiguration : Prop :=
  ∀ s : State, ¬ s.config.wf → step s = .refused .illFormedConfiguration
end

