-- ==== Sys2Proof/Laws/Memory.lean ====
section
/-! SUPPORT. The packet buffer: read after write, and every memory operation keeps the canonical form. -/

namespace Sys2Proof.Machine

@[simp] theorem Memory.read_nil (a : Nat) : Memory.read [] a = 0#8 := rfl

theorem Memory.read_erase_same (m : Memory) (a : Nat) : Memory.read (Memory.erase m a) a = 0#8 := by
  induction m with
  | nil => rfl
  | cons kv rest ih =>
    obtain ⟨k, v⟩ := kv
    by_cases h : k = a <;> simp [Memory.erase, Memory.read, h, ih]

theorem Memory.read_erase_other (m : Memory) {a b : Nat} (h : b ≠ a) :
    Memory.read (Memory.erase m a) b = Memory.read m b := by
  induction m with
  | nil => rfl
  | cons kv rest ih =>
    obtain ⟨k, v⟩ := kv
    by_cases hk : k = a
    · have hb : ¬ k = b := fun e => h (e ▸ hk)
      have hab : ¬ a = b := fun e => h e.symm
      simp [Memory.erase, Memory.read, hk, hab, ih]
    · by_cases hb : k = b
      · subst hb
        simp [Memory.erase, Memory.read, hk]
      · simp [Memory.erase, Memory.read, hk, hb, ih]

theorem Memory.read_insert_other (m : Memory) {a b : Nat} (x : Byte) (h : b ≠ a) :
    Memory.read (Memory.insert m a x) b = Memory.read m b := by
  have hab : ¬ a = b := fun e => h e.symm
  induction m with
  | nil => simp [Memory.insert, Memory.read, hab]
  | cons kv rest ih =>
    obtain ⟨k, v⟩ := kv
    by_cases hk : a < k
    · simp [Memory.insert, Memory.read, hk, hab]
    · by_cases hb : k = b
      · subst hb
        simp [Memory.insert, Memory.read, hk]
      · simp [Memory.insert, Memory.read, hk, hb, ih]

theorem Memory.read_insert_erase_same (m : Memory) (a : Nat) (x : Byte) :
    Memory.read (Memory.insert (Memory.erase m a) a x) a = x := by
  induction m with
  | nil => simp [Memory.erase, Memory.insert, Memory.read]
  | cons kv rest ih =>
    obtain ⟨k, v⟩ := kv
    by_cases hk : k = a
    · simpa [Memory.erase, hk] using ih
    · by_cases hlt : a < k <;> simp [Memory.erase, Memory.insert, Memory.read, hk, hlt, ih]

/-- Reading the byte just written gives the value written. -/
@[simp] theorem Memory.read_write_same (m : Memory) (a : Nat) (x : Byte) :
    Memory.read (Memory.write m a x) a = x := by
  unfold Memory.write
  split
  · next h => rw [Memory.read_erase_same, h]; rfl
  · exact Memory.read_insert_erase_same m a x

/-- A write leaves every other byte alone. -/
theorem Memory.read_write_other (m : Memory) {a b : Nat} (x : Byte) (h : b ≠ a) :
    Memory.read (Memory.write m a x) b = Memory.read m b := by
  unfold Memory.write
  split
  · exact Memory.read_erase_other m h
  · rw [Memory.read_insert_other _ x h, Memory.read_erase_other m h]

theorem Memory.read_write (m : Memory) (a b : Nat) (x : Byte) :
    Memory.read (Memory.write m a x) b = if b = a then x else Memory.read m b := by
  split
  · next h => rw [h, Memory.read_write_same]
  · next h => exact Memory.read_write_other m x h

/-- The cleared buffer reads 0 at its five bytes, and as before elsewhere. -/
theorem read_clearPacket (m : Memory) (a : Nat) :
    Memory.read (clearPacket m) a = if a < 5 then 0#8 else Memory.read m a := by
  unfold clearPacket
  simp only [Memory.read_write]
  split_ifs <;> first | rfl | omega

theorem Memory.wfFrom_mono {lo lo' : Nat} {m : Memory} (h : lo ≤ lo') (hm : Memory.wfFrom lo' m = true) :
    Memory.wfFrom lo m = true := by
  cases m with
  | nil => rfl
  | cons kv rest =>
    simp only [Memory.wfFrom, Bool.and_eq_true, decide_eq_true_eq] at hm ⊢
    exact ⟨⟨⟨h.trans hm.1.1.1, hm.1.1.2⟩, hm.1.2⟩, hm.2⟩

theorem Memory.wfFrom_erase {lo : Nat} {m : Memory} (a : Nat) (h : Memory.wfFrom lo m = true) :
    Memory.wfFrom lo (Memory.erase m a) = true := by
  induction m generalizing lo with
  | nil => rfl
  | cons kv rest ih =>
    obtain ⟨k, v⟩ := kv
    simp only [Memory.wfFrom, Bool.and_eq_true, decide_eq_true_eq] at h
    by_cases hk : k = a
    · simpa [Memory.erase, hk] using Memory.wfFrom_mono (by omega) (ih h.2)
    · simp only [Memory.erase, hk, if_false, Memory.wfFrom, Bool.and_eq_true, decide_eq_true_eq]
      exact ⟨h.1, ih h.2⟩

theorem Memory.wfFrom_insert_erase {lo : Nat} {m : Memory} {a : Nat} {x : Byte} (hlo : lo ≤ a) (ha : a < 5)
    (hx : x ≠ Memory.unlisted a) (h : Memory.wfFrom lo m = true) :
    Memory.wfFrom lo (Memory.insert (Memory.erase m a) a x) = true := by
  induction m generalizing lo with
  | nil => simp [Memory.erase, Memory.insert, Memory.wfFrom, hlo, ha, hx]
  | cons kv rest ih =>
    obtain ⟨k, v⟩ := kv
    have h' := h
    simp only [Memory.wfFrom, Bool.and_eq_true, decide_eq_true_eq] at h
    by_cases hk : k = a
    · subst hk
      simpa [Memory.erase] using ih hlo (Memory.wfFrom_mono (by omega) h.2)
    · by_cases hlt : a < k
      · simp only [Memory.erase, hk, if_false, Memory.insert, hlt, if_true, Memory.wfFrom, Bool.and_eq_true,
          decide_eq_true_eq]
        exact ⟨⟨⟨hlo, ha⟩, hx⟩, ⟨⟨by omega, h.1.1.2⟩, h.1.2⟩, Memory.wfFrom_erase a h.2⟩
      · simp only [Memory.erase, hk, if_false, Memory.insert, hlt, Memory.wfFrom, Bool.and_eq_true,
          decide_eq_true_eq]
        exact ⟨h.1, ih (by omega) h.2⟩

/-- A write to an existing address keeps the canonical form. -/
theorem Memory.wf_write {m : Memory} {a : Nat} (x : Byte) (ha : a < 5) (h : Memory.wf m = true) :
    Memory.wf (Memory.write m a x) = true := by
  unfold Memory.write Memory.wf
  split
  · exact Memory.wfFrom_erase a h
  · next hx => exact Memory.wfFrom_insert_erase (Nat.zero_le a) ha hx h

/-- Clearing the buffer keeps the canonical form. -/
theorem wf_clearPacket {m : Memory} (h : Memory.wf m = true) : Memory.wf (clearPacket m) = true :=
  Memory.wf_write _ (by decide) (Memory.wf_write _ (by decide) (Memory.wf_write _ (by decide)
    (Memory.wf_write _ (by decide) (Memory.wf_write _ (by decide) h))))

theorem Memory.read_below {lo a : Nat} {m : Memory} (h : Memory.wfFrom lo m = true) (ha : a < lo) :
    Memory.read m a = 0#8 := by
  induction m generalizing lo with
  | nil => rfl
  | cons kv rest ih =>
    obtain ⟨k, v⟩ := kv
    simp only [Memory.wfFrom, Bool.and_eq_true, decide_eq_true_eq] at h
    have hk : ¬ k = a := by omega
    simpa [Memory.read, hk] using ih h.2 (by omega)

theorem Memory.eq_of_reads {lo : Nat} {m m' : Memory} (h : Memory.wfFrom lo m = true)
    (h' : Memory.wfFrom lo m' = true) (hr : ∀ a, Memory.read m a = Memory.read m' a) : m = m' := by
  induction m generalizing lo m' with
  | nil =>
    cases m' with
    | nil => rfl
    | cons kv rest =>
      obtain ⟨k, v⟩ := kv
      simp only [Memory.wfFrom, Bool.and_eq_true, decide_eq_true_eq] at h'
      have := hr k
      simp only [Memory.read, if_true] at this
      exact absurd this.symm h'.1.2
  | cons kv rest ih =>
    obtain ⟨k, v⟩ := kv
    simp only [Memory.wfFrom, Bool.and_eq_true, decide_eq_true_eq] at h
    cases m' with
    | nil =>
      have := hr k
      simp only [Memory.read, if_true] at this
      exact absurd this h.1.2
    | cons kv' rest' =>
      obtain ⟨k', v'⟩ := kv'
      simp only [Memory.wfFrom, Bool.and_eq_true, decide_eq_true_eq] at h'
      have key : k = k' := by
        rcases Nat.lt_trichotomy k k' with hlt | heq | hgt
        · have h1 := hr k
          have hk : ¬ k' = k := by omega
          simp only [Memory.read, if_true, hk, if_false, Memory.read_below h'.2 (show k < k' + 1 by omega)] at h1
          exact absurd h1 h.1.2
        · exact heq
        · have h1 := hr k'
          have hk : ¬ k = k' := by omega
          simp only [Memory.read, if_true, hk, if_false, Memory.read_below h.2 (show k' < k + 1 by omega)] at h1
          exact absurd h1.symm h'.1.2
      subst key
      have hv : v = v' := by simpa [Memory.read] using hr k
      subst hv
      refine congrArg _ (ih h.2 h'.2 fun a => ?_)
      by_cases ha : k = a
      · subst ha
        rw [Memory.read_below h.2 (Nat.lt_succ_self k), Memory.read_below h'.2 (Nat.lt_succ_self k)]
      · simpa [Memory.read, ha] using hr a

/-- In canonical form, equal contents are equal data. -/
theorem Memory.ext_of_wf {m m' : Memory} (h : Memory.wf m = true) (h' : Memory.wf m' = true)
    (hr : ∀ a, Memory.read m a = Memory.read m' a) : m = m' := Memory.eq_of_reads h h' hr

/-- `MemRead` answers exactly at the five addresses, with the byte there. -/
theorem memRead_eq_some_iff (m : Memory) (i : Nat) (v : Byte) :
    memRead m i = some v ↔ i < 5 ∧ v = Memory.read m i := by
  unfold memRead
  split
  · next h => exact ⟨fun e => ⟨h, (Option.some.inj e).symm⟩, fun e => by rw [e.2]⟩
  · next h => exact ⟨fun e => (nomatch e), fun e => absurd e.1 h⟩

/-- `MemWrite` answers exactly at the five addresses, with the byte written there. -/
theorem memWrite_eq_some_iff (m m' : Memory) (i : Nat) (v : Byte) :
    memWrite m i v = some m' ↔ i < 5 ∧ m' = Memory.write m i v := by
  unfold memWrite
  split
  · next h => exact ⟨fun e => ⟨h, (Option.some.inj e).symm⟩, fun e => by rw [e.2]⟩
  · next h => exact ⟨fun e => (nomatch e), fun e => absurd e.1 h⟩

end Sys2Proof.Machine
end

