-- ==== Sys2Proof/Laws/State.lean ====
section
/-! SUPPORT. One lemma per field of the record for each update of it, and the fields of a committed state. -/

namespace Sys2Proof.Machine

variable (b : Block) (c : Config)

@[simp] theorem raiseEvent_sstate (bit : Bool) : (raiseEvent b bit).sstate = b.sstate := rfl
@[simp] theorem raiseEvent_cnt (bit : Bool) : (raiseEvent b bit).cnt = b.cnt := rfl
@[simp] theorem raiseEvent_wasLow (bit : Bool) : (raiseEvent b bit).wasLow = b.wasLow := rfl
@[simp] theorem raiseEvent_evtValid (bit : Bool) : (raiseEvent b bit).evtValid = true := rfl
@[simp] theorem raiseEvent_evtBit (bit : Bool) : (raiseEvent b bit).evtBit = bit := rfl
@[simp] theorem raiseEvent_fstate (bit : Bool) : (raiseEvent b bit).fstate = b.fstate := rfl
@[simp] theorem raiseEvent_hist (bit : Bool) : (raiseEvent b bit).hist = b.hist := rfl
@[simp] theorem raiseEvent_bytePos (bit : Bool) : (raiseEvent b bit).bytePos = b.bytePos := rfl
@[simp] theorem raiseEvent_bitPos (bit : Bool) : (raiseEvent b bit).bitPos = b.bitPos := rfl
@[simp] theorem raiseEvent_mem (bit : Bool) : (raiseEvent b bit).mem = b.mem := rfl
@[simp] theorem raiseEvent_pktReady (bit : Bool) : (raiseEvent b bit).pktReady = b.pktReady := rfl
@[simp] theorem raiseEvent_tmo (bit : Bool) : (raiseEvent b bit).tmo = b.tmo := rfl

@[simp] theorem takeEvent_sstate : (takeEvent b).sstate = b.sstate := rfl
@[simp] theorem takeEvent_cnt : (takeEvent b).cnt = b.cnt := rfl
@[simp] theorem takeEvent_wasLow : (takeEvent b).wasLow = b.wasLow := rfl
@[simp] theorem takeEvent_evtValid : (takeEvent b).evtValid = false := rfl
@[simp] theorem takeEvent_evtBit : (takeEvent b).evtBit = b.evtBit := rfl
@[simp] theorem takeEvent_fstate : (takeEvent b).fstate = b.fstate := rfl
@[simp] theorem takeEvent_hist : (takeEvent b).hist = b.hist := rfl
@[simp] theorem takeEvent_bytePos : (takeEvent b).bytePos = b.bytePos := rfl
@[simp] theorem takeEvent_bitPos : (takeEvent b).bitPos = b.bitPos := rfl
@[simp] theorem takeEvent_mem : (takeEvent b).mem = b.mem := rfl
@[simp] theorem takeEvent_pktReady : (takeEvent b).pktReady = b.pktReady := rfl
@[simp] theorem takeEvent_tmo : (takeEvent b).tmo = b.tmo := rfl

@[simp] theorem noteLow_sstate : (noteLow b).sstate = b.sstate := rfl
@[simp] theorem noteLow_cnt : (noteLow b).cnt = b.cnt := rfl
@[simp] theorem noteLow_wasLow : (noteLow b).wasLow = true := rfl
@[simp] theorem noteLow_evtValid : (noteLow b).evtValid = b.evtValid := rfl
@[simp] theorem noteLow_evtBit : (noteLow b).evtBit = b.evtBit := rfl
@[simp] theorem noteLow_fstate : (noteLow b).fstate = b.fstate := rfl
@[simp] theorem noteLow_hist : (noteLow b).hist = b.hist := rfl
@[simp] theorem noteLow_bytePos : (noteLow b).bytePos = b.bytePos := rfl
@[simp] theorem noteLow_bitPos : (noteLow b).bitPos = b.bitPos := rfl
@[simp] theorem noteLow_mem : (noteLow b).mem = b.mem := rfl
@[simp] theorem noteLow_pktReady : (noteLow b).pktReady = b.pktReady := rfl
@[simp] theorem noteLow_tmo : (noteLow b).tmo = b.tmo := rfl

@[simp] theorem forgetLow_sstate : (forgetLow b).sstate = b.sstate := rfl
@[simp] theorem forgetLow_cnt : (forgetLow b).cnt = b.cnt := rfl
@[simp] theorem forgetLow_wasLow : (forgetLow b).wasLow = false := rfl
@[simp] theorem forgetLow_evtValid : (forgetLow b).evtValid = b.evtValid := rfl
@[simp] theorem forgetLow_evtBit : (forgetLow b).evtBit = b.evtBit := rfl
@[simp] theorem forgetLow_fstate : (forgetLow b).fstate = b.fstate := rfl
@[simp] theorem forgetLow_hist : (forgetLow b).hist = b.hist := rfl
@[simp] theorem forgetLow_bytePos : (forgetLow b).bytePos = b.bytePos := rfl
@[simp] theorem forgetLow_bitPos : (forgetLow b).bitPos = b.bitPos := rfl
@[simp] theorem forgetLow_mem : (forgetLow b).mem = b.mem := rfl
@[simp] theorem forgetLow_pktReady : (forgetLow b).pktReady = b.pktReady := rfl
@[simp] theorem forgetLow_tmo : (forgetLow b).tmo = b.tmo := rfl

@[simp] theorem setReady_sstate : (setReady b).sstate = b.sstate := rfl
@[simp] theorem setReady_cnt : (setReady b).cnt = b.cnt := rfl
@[simp] theorem setReady_wasLow : (setReady b).wasLow = b.wasLow := rfl
@[simp] theorem setReady_evtValid : (setReady b).evtValid = b.evtValid := rfl
@[simp] theorem setReady_evtBit : (setReady b).evtBit = b.evtBit := rfl
@[simp] theorem setReady_fstate : (setReady b).fstate = b.fstate := rfl
@[simp] theorem setReady_hist : (setReady b).hist = b.hist := rfl
@[simp] theorem setReady_bytePos : (setReady b).bytePos = b.bytePos := rfl
@[simp] theorem setReady_bitPos : (setReady b).bitPos = b.bitPos := rfl
@[simp] theorem setReady_mem : (setReady b).mem = b.mem := rfl
@[simp] theorem setReady_pktReady : (setReady b).pktReady = true := rfl
@[simp] theorem setReady_tmo : (setReady b).tmo = b.tmo := rfl

@[simp] theorem clearReady_sstate : (clearReady b).sstate = b.sstate := rfl
@[simp] theorem clearReady_cnt : (clearReady b).cnt = b.cnt := rfl
@[simp] theorem clearReady_wasLow : (clearReady b).wasLow = b.wasLow := rfl
@[simp] theorem clearReady_evtValid : (clearReady b).evtValid = b.evtValid := rfl
@[simp] theorem clearReady_evtBit : (clearReady b).evtBit = b.evtBit := rfl
@[simp] theorem clearReady_fstate : (clearReady b).fstate = b.fstate := rfl
@[simp] theorem clearReady_hist : (clearReady b).hist = b.hist := rfl
@[simp] theorem clearReady_bytePos : (clearReady b).bytePos = b.bytePos := rfl
@[simp] theorem clearReady_bitPos : (clearReady b).bitPos = b.bitPos := rfl
@[simp] theorem clearReady_mem : (clearReady b).mem = b.mem := rfl
@[simp] theorem clearReady_pktReady : (clearReady b).pktReady = false := rfl
@[simp] theorem clearReady_tmo : (clearReady b).tmo = b.tmo := rfl

@[simp] theorem enterSampler_sstate (st : SamplerState) : (enterSampler b st).sstate = st := rfl
@[simp] theorem enterSampler_cnt (st : SamplerState) : (enterSampler b st).cnt = 0 := rfl
@[simp] theorem enterSampler_wasLow (st : SamplerState) : (enterSampler b st).wasLow = b.wasLow := rfl
@[simp] theorem enterSampler_evtValid (st : SamplerState) : (enterSampler b st).evtValid = b.evtValid := rfl
@[simp] theorem enterSampler_evtBit (st : SamplerState) : (enterSampler b st).evtBit = b.evtBit := rfl
@[simp] theorem enterSampler_fstate (st : SamplerState) : (enterSampler b st).fstate = b.fstate := rfl
@[simp] theorem enterSampler_hist (st : SamplerState) : (enterSampler b st).hist = b.hist := rfl
@[simp] theorem enterSampler_bytePos (st : SamplerState) : (enterSampler b st).bytePos = b.bytePos := rfl
@[simp] theorem enterSampler_bitPos (st : SamplerState) : (enterSampler b st).bitPos = b.bitPos := rfl
@[simp] theorem enterSampler_mem (st : SamplerState) : (enterSampler b st).mem = b.mem := rfl
@[simp] theorem enterSampler_pktReady (st : SamplerState) : (enterSampler b st).pktReady = b.pktReady := rfl
@[simp] theorem enterSampler_tmo (st : SamplerState) : (enterSampler b st).tmo = b.tmo := rfl

@[simp] theorem countSample_sstate : (countSample c b).sstate = b.sstate := rfl
@[simp] theorem countSample_cnt : (countSample c b).cnt = satInc c b.cnt := rfl
@[simp] theorem countSample_wasLow : (countSample c b).wasLow = b.wasLow := rfl
@[simp] theorem countSample_evtValid : (countSample c b).evtValid = b.evtValid := rfl
@[simp] theorem countSample_evtBit : (countSample c b).evtBit = b.evtBit := rfl
@[simp] theorem countSample_fstate : (countSample c b).fstate = b.fstate := rfl
@[simp] theorem countSample_hist : (countSample c b).hist = b.hist := rfl
@[simp] theorem countSample_bytePos : (countSample c b).bytePos = b.bytePos := rfl
@[simp] theorem countSample_bitPos : (countSample c b).bitPos = b.bitPos := rfl
@[simp] theorem countSample_mem : (countSample c b).mem = b.mem := rfl
@[simp] theorem countSample_pktReady : (countSample c b).pktReady = b.pktReady := rfl
@[simp] theorem countSample_tmo : (countSample c b).tmo = b.tmo := rfl

@[simp] theorem idleStep_sstate : (idleStep b).sstate = b.sstate := rfl
@[simp] theorem idleStep_cnt : (idleStep b).cnt = b.cnt := rfl
@[simp] theorem idleStep_wasLow : (idleStep b).wasLow = b.wasLow := rfl
@[simp] theorem idleStep_evtValid : (idleStep b).evtValid = b.evtValid := rfl
@[simp] theorem idleStep_evtBit : (idleStep b).evtBit = b.evtBit := rfl
@[simp] theorem idleStep_fstate : (idleStep b).fstate = .seek := rfl
@[simp] theorem idleStep_hist : (idleStep b).hist = 0xFF#8 := rfl
@[simp] theorem idleStep_bytePos : (idleStep b).bytePos = b.bytePos := rfl
@[simp] theorem idleStep_bitPos : (idleStep b).bitPos = b.bitPos := rfl
@[simp] theorem idleStep_mem : (idleStep b).mem = b.mem := rfl
@[simp] theorem idleStep_pktReady : (idleStep b).pktReady = b.pktReady := rfl
@[simp] theorem idleStep_tmo : (idleStep b).tmo = 1 := rfl

@[simp] theorem pushHistory_sstate (bit : Bool) : (pushHistory b bit).sstate = b.sstate := rfl
@[simp] theorem pushHistory_cnt (bit : Bool) : (pushHistory b bit).cnt = b.cnt := rfl
@[simp] theorem pushHistory_wasLow (bit : Bool) : (pushHistory b bit).wasLow = b.wasLow := rfl
@[simp] theorem pushHistory_evtValid (bit : Bool) : (pushHistory b bit).evtValid = b.evtValid := rfl
@[simp] theorem pushHistory_evtBit (bit : Bool) : (pushHistory b bit).evtBit = b.evtBit := rfl
@[simp] theorem pushHistory_fstate (bit : Bool) : (pushHistory b bit).fstate = b.fstate := rfl
@[simp] theorem pushHistory_hist (bit : Bool) : (pushHistory b bit).hist = shiftIn b.hist bit := rfl
@[simp] theorem pushHistory_bytePos (bit : Bool) : (pushHistory b bit).bytePos = b.bytePos := rfl
@[simp] theorem pushHistory_bitPos (bit : Bool) : (pushHistory b bit).bitPos = b.bitPos := rfl
@[simp] theorem pushHistory_mem (bit : Bool) : (pushHistory b bit).mem = b.mem := rfl
@[simp] theorem pushHistory_pktReady (bit : Bool) : (pushHistory b bit).pktReady = b.pktReady := rfl
@[simp] theorem pushHistory_tmo (bit : Bool) : (pushHistory b bit).tmo = b.tmo := rfl

@[simp] theorem startFrame_sstate : (startFrame b).sstate = b.sstate := rfl
@[simp] theorem startFrame_cnt : (startFrame b).cnt = b.cnt := rfl
@[simp] theorem startFrame_wasLow : (startFrame b).wasLow = b.wasLow := rfl
@[simp] theorem startFrame_evtValid : (startFrame b).evtValid = b.evtValid := rfl
@[simp] theorem startFrame_evtBit : (startFrame b).evtBit = b.evtBit := rfl
@[simp] theorem startFrame_fstate : (startFrame b).fstate = .acc := rfl
@[simp] theorem startFrame_hist : (startFrame b).hist = b.hist := rfl
@[simp] theorem startFrame_bytePos : (startFrame b).bytePos = 0 := rfl
@[simp] theorem startFrame_bitPos : (startFrame b).bitPos = 1 := rfl
@[simp] theorem startFrame_mem : (startFrame b).mem = clearPacket b.mem := rfl
@[simp] theorem startFrame_pktReady : (startFrame b).pktReady = false := rfl
@[simp] theorem startFrame_tmo : (startFrame b).tmo = b.tmo := rfl

@[simp] theorem completeFrame_sstate : (completeFrame b).sstate = b.sstate := rfl
@[simp] theorem completeFrame_cnt : (completeFrame b).cnt = b.cnt := rfl
@[simp] theorem completeFrame_wasLow : (completeFrame b).wasLow = b.wasLow := rfl
@[simp] theorem completeFrame_evtValid : (completeFrame b).evtValid = b.evtValid := rfl
@[simp] theorem completeFrame_evtBit : (completeFrame b).evtBit = b.evtBit := rfl
@[simp] theorem completeFrame_fstate : (completeFrame b).fstate = .idle := rfl
@[simp] theorem completeFrame_hist : (completeFrame b).hist = b.hist := rfl
@[simp] theorem completeFrame_bytePos : (completeFrame b).bytePos = b.bytePos := rfl
@[simp] theorem completeFrame_bitPos : (completeFrame b).bitPos = b.bitPos := rfl
@[simp] theorem completeFrame_mem : (completeFrame b).mem = b.mem := rfl
@[simp] theorem completeFrame_pktReady : (completeFrame b).pktReady = true := rfl
@[simp] theorem completeFrame_tmo : (completeFrame b).tmo = 0 := rfl

/-- A committed command answers exactly the new record and result; configuration and schedule stay. -/
theorem commit_next_iff (s t : State) (b : Block) (r : Option Result) :
    commit s b r = .next t ↔ t = ⟨s.config, b, r, s.schedule⟩ := by
  constructor
  · intro h
    cases h
    rfl
  · rintro rfl
    rfl

@[simp] theorem takeEvent_pkt (i : Nat) : (takeEvent b).pkt i = b.pkt i := rfl
@[simp] theorem idleStep_pkt (i : Nat) : (idleStep b).pkt i = b.pkt i := rfl
@[simp] theorem pushHistory_pkt (bit : Bool) (i : Nat) : (pushHistory b bit).pkt i = b.pkt i := rfl
@[simp] theorem completeFrame_pkt (i : Nat) : (completeFrame b).pkt i = b.pkt i := rfl
@[simp] theorem clearReady_pkt (i : Nat) : (clearReady b).pkt i = b.pkt i := rfl
@[simp] theorem setReady_pkt (i : Nat) : (setReady b).pkt i = b.pkt i := rfl

@[simp] theorem powerOn_config : (State.powerOn c).config = c := rfl
@[simp] theorem powerOn_blk : (State.powerOn c).blk = Block.reset := rfl
@[simp] theorem powerOn_result : (State.powerOn c).result = none := rfl
@[simp] theorem powerOn_schedule : (State.powerOn c).schedule = [] := rfl
@[simp] theorem placeCommand_config (s : State) (w : CommandWord) : (placeCommand s w).config = s.config := rfl
@[simp] theorem placeCommand_blk (s : State) (w : CommandWord) : (placeCommand s w).blk = s.blk := rfl
@[simp] theorem placeCommand_schedule (s : State) (w : CommandWord) :
    (placeCommand s w).schedule = w :: s.schedule := rfl

end Sys2Proof.Machine
end

