-- ==== Sys2Proof/Laws/Commands.lean ====
section
/-! SUPPORT. What each shared operation and each command can do, said once. -/

namespace Sys2Proof.Machine

/-- Saturation keeps the counter inside its field (rule R101). -/
theorem satInc_le (c : Config) (v : Nat) : satInc c v ≤ c.cntMax := by
  unfold satInc
  split <;> omega

/-- Below saturation the counter counts exactly. -/
theorem satInc_of_lt {c : Config} {v : Nat} (h : v < c.cntMax) : satInc c v = v + 1 := if_pos h

/-- Everything the WAIT step can do (rule R102). -/
theorem waitStep_cases (level : Bool) (b : Block) :
    (level = true ∧ b.wasLow = true ∧ waitStep level b = forgetLow (enterSampler b .acq)) ∨
    (level = true ∧ b.wasLow = false ∧ waitStep level b = b) ∨
    (level = false ∧ waitStep level b = noteLow b) := by
  cases level <;> cases h : b.wasLow <;> simp [waitStep, h]

/-- Everything the end of a pulse can do (rule R103). -/
theorem classifyPulse_cases (c : Config) (b : Block) :
    ((c.hiMin ≤ b.cnt ∧ b.cnt ≤ c.hiMax) ∧ classifyPulse c b = enterSampler (raiseEvent b true) .gap) ∨
    (¬ (c.hiMin ≤ b.cnt ∧ b.cnt ≤ c.hiMax) ∧ (c.loMin ≤ b.cnt ∧ b.cnt ≤ c.loMax) ∧
      classifyPulse c b = enterSampler (raiseEvent b false) .gap) ∨
    (¬ (c.hiMin ≤ b.cnt ∧ b.cnt ≤ c.hiMax) ∧ ¬ (c.loMin ≤ b.cnt ∧ b.cnt ≤ c.loMax) ∧
      classifyPulse c b = enterSampler b .wait) := by
  unfold classifyPulse
  split
  · next h => exact .inl ⟨h, rfl⟩
  · next h =>
    split
    · next h' => exact .inr (.inl ⟨h, h', rfl⟩)
    · next h' => exact .inr (.inr ⟨h, h', rfl⟩)

/-- Everything the next HIGH edge in GAP can do (rule R104). -/
theorem endGap_cases (c : Config) (b : Block) :
    (c.gapDesync ≤ b.cnt ∧ endGap c b = enterSampler b .wait) ∨
    (b.cnt < c.gapDesync ∧ c.gapMin ≤ b.cnt ∧ endGap c b = enterSampler b .acq) ∨
    (b.cnt < c.gapDesync ∧ b.cnt < c.gapMin ∧ endGap c b = b) := by
  unfold endGap
  split
  · next h => exact .inl ⟨h, rfl⟩
  · next h =>
    split
    · next h' => exact .inr (.inl ⟨by omega, h', rfl⟩)
    · next h' => exact .inr (.inr ⟨by omega, by omega, rfl⟩)

/-- Everything the timeout step can do (rule R105). -/
theorem timeoutStep_cases (c : Config) (b : Block) :
    (b.tmo = 0 ∧ timeoutStep c b = b) ∨
    (b.tmo ≠ 0 ∧ c.tmoMax < b.tmo + 1 ∧ timeoutStep c b = { b with fstate := .idle, tmo := 0 }) ∨
    (b.tmo ≠ 0 ∧ b.tmo + 1 ≤ c.tmoMax ∧ timeoutStep c b = { b with tmo := b.tmo + 1 }) := by
  unfold timeoutStep
  split
  · next h => exact .inl ⟨h, rfl⟩
  · next h =>
    split
    · next h' => exact .inr (.inl ⟨h, h', rfl⟩)
    · next h' => exact .inr (.inr ⟨h, by omega, rfl⟩)

/-- The sampler step writes only `sstate`, `cnt`, `was_low` and the event slot, and never clears `evt_valid`
(rules R106, R107). -/
theorem samplerStep_frame (c : Config) (level : Bool) (b : Block) :
    (samplerStep c level b).fstate = b.fstate ∧ (samplerStep c level b).hist = b.hist ∧
    (samplerStep c level b).bytePos = b.bytePos ∧ (samplerStep c level b).bitPos = b.bitPos ∧
    (samplerStep c level b).mem = b.mem ∧ (samplerStep c level b).pktReady = b.pktReady ∧
    (samplerStep c level b).tmo = b.tmo ∧
    (b.evtValid = true → (samplerStep c level b).evtValid = true) := by
  unfold samplerStep
  split
  · obtain ⟨-, -, h⟩ | ⟨-, -, h⟩ | ⟨-, h⟩ := waitStep_cases level b <;> rw [h] <;> simp
  · cases level
    · obtain ⟨-, h⟩ | ⟨-, -, h⟩ | ⟨-, -, h⟩ := classifyPulse_cases c (countSample c b) <;>
        simp only [acqStep, Bool.false_eq_true, if_false, h] <;> simp
    · simp [acqStep]
  · cases level
    · simp [gapStep]
    · obtain ⟨-, h⟩ | ⟨-, -, h⟩ | ⟨-, -, h⟩ := endGap_cases c (countSample c b) <;>
        simp only [gapStep, if_true, h] <;> simp

/-- The timeout step writes only `tmo` and `fstate` (rules R105, R106). -/
theorem timeoutStep_frame (c : Config) (b : Block) :
    (timeoutStep c b).sstate = b.sstate ∧ (timeoutStep c b).cnt = b.cnt ∧ (timeoutStep c b).wasLow = b.wasLow ∧
    (timeoutStep c b).evtValid = b.evtValid ∧ (timeoutStep c b).evtBit = b.evtBit ∧
    (timeoutStep c b).hist = b.hist ∧ (timeoutStep c b).bytePos = b.bytePos ∧
    (timeoutStep c b).bitPos = b.bitPos ∧ (timeoutStep c b).mem = b.mem ∧
    (timeoutStep c b).pktReady = b.pktReady := by
  obtain ⟨-, h⟩ | ⟨-, -, h⟩ | ⟨-, -, h⟩ := timeoutStep_cases c b <;> rw [h] <;> simp

/-- Everything the SEEK step can do (rule R133). -/
theorem seekStep_cases (b : Block) (bit : Bool) :
    (syncMatch (shiftIn b.hist bit) = true ∧ seekStep b bit = startFrame (pushHistory b bit)) ∨
    (syncMatch (shiftIn b.hist bit) = false ∧ seekStep b bit = pushHistory b bit) := by
  unfold seekStep
  cases syncMatch (shiftIn b.hist bit) <;> simp

/-- The sync pattern after a shift is two 1 bits in the old history and a 0 bit (rules R55, R74). -/
theorem syncMatch_shiftIn (h : Byte) (bit : Bool) :
    syncMatch (shiftIn h bit) = (h.getLsbD 1 && h.getLsbD 0 && !bit) := by
  revert h bit
  decide

/-- Everything the ACC step can do (rule R134). -/
theorem accStep_cases (b : Block) (bit : Bool) :
    (5 ≤ b.bytePos.val ∧ accStep b bit = none) ∨
    (b.bytePos.val < 5 ∧ accStep b bit = some (advancePosition
      { b with mem := Memory.write b.mem b.bytePos.val (shiftIn (b.pkt b.bytePos.val) bit) })) := by
  by_cases h : b.bytePos.val < 5
  · exact .inr ⟨h, by simp [accStep, memWrite, h]⟩
  · exact .inl ⟨by omega, by simp [accStep, memWrite, h]⟩

/-- Everything the advance of the positions can do (rule R134). -/
theorem advancePosition_cases (b : Block) :
    (b.bitPos = 7 ∧ advancePosition b = { b with bitPos := 0, bytePos := b.bytePos + 1 }) ∨
    (b.bitPos ≠ 7 ∧ advancePosition b = { b with bitPos := b.bitPos + 1 }) := by
  unfold advancePosition
  split
  · next h => exact .inl ⟨h, rfl⟩
  · next h => exact .inr ⟨h, rfl⟩

/-- Everything DECODE can do (rules R130 to R136). -/
theorem execDecode_cases (s : State) :
    (s.blk.evtValid = false ∧ execDecode s = commit s s.blk (some 0#16)) ∨
    (s.blk.evtValid = true ∧ s.blk.fstate = .idle ∧
      execDecode s = commit s (seekStep (idleStep (takeEvent s.blk)) s.blk.evtBit) (some 0#16)) ∨
    (s.blk.evtValid = true ∧ s.blk.fstate = .seek ∧
      execDecode s = commit s (seekStep (takeEvent s.blk) s.blk.evtBit) (some 0#16)) ∨
    (s.blk.evtValid = true ∧ s.blk.fstate = .acc ∧ s.blk.bytePos = 5 ∧ execDecode s = .fault .noPacketByte) ∨
    (s.blk.evtValid = true ∧ s.blk.fstate = .acc ∧ s.blk.bytePos.val < 5 ∧
      ∃ b, accStep (takeEvent s.blk) s.blk.evtBit = some b ∧
        execDecode s = if b.bytePos = 5 then commit s (completeFrame b) (some 1#16) else commit s b (some 0#16)) := by
  have h0 : flagResult false = 0#16 := rfl
  have h1 : flagResult true = 1#16 := rfl
  cases hv : s.blk.evtValid with
  | false => simp [execDecode, hv, h0]
  | true =>
    cases hf : s.blk.fstate with
    | idle => simp [execDecode, frameStep, hv, hf, h0]
    | seek => simp [execDecode, frameStep, hv, hf, h0]
    | acc =>
      obtain ⟨hp, h⟩ | ⟨hp, h⟩ := accStep_cases (takeEvent s.blk) s.blk.evtBit
      · have : s.blk.bytePos = 5 := Fin.ext (by simp at hp; omega)
        simp [execDecode, frameStep, hv, hf, h, this]
      · refine .inr (.inr (.inr (.inr ⟨rfl, rfl, hp, _, h, ?_⟩)))
        simp [execDecode, frameStep, hv, hf, h, finishAcc, h0, h1]

/-- Everything reading a counter can answer (rule R193): the value itself where it fits the result bus, else the free
value. -/
theorem counterResult_cases (k width v : Nat) :
    (v < 2 ^ 16 ∧ (counterResult k width v).toNat = v) ∨
    (2 ^ 16 ≤ v ∧ counterResult k width v = Config.wideStatus k width v) := by
  unfold counterResult
  split
  · next h => exact .inl ⟨h, Nat.mod_eq_of_lt h⟩
  · next h => exact .inr ⟨by omega, rfl⟩

/-- What TICK answers (rule R100). -/
theorem exec_tick (level : Bool) (s : State) :
    exec (.tick level) s = .next ⟨s.config, timeoutStep s.config (samplerStep s.config level s.blk), none, s.schedule⟩ :=
  rfl

theorem exec_decode (s : State) : exec .decode s = execDecode s := rfl

/-- Everything a step can do: refuse the configuration, wait for a command, refuse a reserved word, or run the
command. -/
theorem step_cases (s : State) :
    (¬ s.config.wf ∧ step s = .refused .illFormedConfiguration) ∨
    (s.config.wf ∧ s.schedule = [] ∧ step s = .next s) ∨
    (s.config.wf ∧ ∃ w rest why, s.schedule = w :: rest ∧ decodeWord w = .error why ∧
      step s = .refused (.reservedWord why)) ∨
    (s.config.wf ∧ ∃ w rest i, s.schedule = w :: rest ∧ decodeWord w = .ok i ∧
      step s = exec i { s with schedule := rest }) := by
  by_cases hc : s.config.wf
  · cases hs : s.schedule with
    | nil => exact .inr (.inl ⟨hc, rfl, by simp only [step, if_pos hc, fetch, hs, noCommand]⟩)
    | cons w rest =>
      cases hd : decodeWord w with
      | error why =>
        exact .inr (.inr (.inl ⟨hc, w, rest, why, rfl, hd, by simp only [step, if_pos hc, fetch, hs, hd]⟩))
      | ok i =>
        exact .inr (.inr (.inr ⟨hc, w, rest, i, rfl, hd, by simp only [step, if_pos hc, fetch, hs, hd]⟩))
  · exact .inl ⟨hc, by simp only [step, if_neg hc]⟩

/-- A run of one more step, in terms of `step` itself. -/
theorem core_run_succ (k : Nat) (s : State) :
    Host.Core.run core (k + 1) s =
      match step s with
      | .next t => Host.Core.run core k t
      | .fault f => .fault f
      | .refused r => .refused r := by
  cases h : step s with
  | next t =>
    have h' : core.step s = .next t := h
    simp only [Host.Core.run, h']
  | fault f =>
    have h' : core.step s = .fault f := h
    simp only [Host.Core.run, h']
  | refused r =>
    have h' : core.step s = .refused r := h
    simp only [Host.Core.run, h']

end Sys2Proof.Machine
end

