-- ==== Sys2Proof/Laws/PerInstr.lean ====
section
/-! SUPPORT. Per-instruction laws: every encoded command lies in its own row of the opcode table. -/

namespace Sys2Proof.Laws

/-- The `mask` of the command's row of the opcode table. -/
def rowMask : Instr → CommandWord
  | .tick _ => 0xFE#8
  | .decode => 0xFF#8
  | .poll => 0xFF#8
  | .rdbyte _ => 0xF8#8
  | .ack => 0xFF#8
  | .crc => 0xFF#8
  | .valid => 0xFF#8
  | .sid => 0xFF#8
  | .hum => 0xFF#8
  | .temp => 0xFF#8
  | .rdstat _ => 0xF0#8
  | .reset => 0xFF#8

/-- The `match` of the command's row of the opcode table. -/
def rowPattern : Instr → CommandWord
  | .tick _ => 0x10#8
  | .decode => 0x20#8
  | .poll => 0x30#8
  | .rdbyte _ => 0x40#8
  | .ack => 0x50#8
  | .crc => 0x60#8
  | .valid => 0x70#8
  | .sid => 0x80#8
  | .hum => 0x90#8
  | .temp => 0xA0#8
  | .rdstat _ => 0xE0#8
  | .reset => 0xF0#8

/-- The command's word has its row's fixed bits. -/
def EncodeFitsRow.Statement (i : Instr) : Prop := encode i &&& rowMask i = rowPattern i

theorem EncodeFitsRow.tick (level : Bool) : EncodeFitsRow.Statement (.tick level) := by cases level <;> rfl
theorem EncodeFitsRow.decode : EncodeFitsRow.Statement .decode := rfl
theorem EncodeFitsRow.poll : EncodeFitsRow.Statement .poll := rfl
theorem EncodeFitsRow.rdbyte (i : BitVec 3) : EncodeFitsRow.Statement (.rdbyte i) := by
  revert i
  unfold EncodeFitsRow.Statement
  decide
theorem EncodeFitsRow.ack : EncodeFitsRow.Statement .ack := rfl
theorem EncodeFitsRow.crc : EncodeFitsRow.Statement .crc := rfl
theorem EncodeFitsRow.valid : EncodeFitsRow.Statement .valid := rfl
theorem EncodeFitsRow.sid : EncodeFitsRow.Statement .sid := rfl
theorem EncodeFitsRow.hum : EncodeFitsRow.Statement .hum := rfl
theorem EncodeFitsRow.temp : EncodeFitsRow.Statement .temp := rfl
theorem EncodeFitsRow.rdstat (k : BitVec 4) : EncodeFitsRow.Statement (.rdstat k) := by
  revert k
  unfold EncodeFitsRow.Statement
  decide
theorem EncodeFitsRow.reset : EncodeFitsRow.Statement .reset := rfl

end Sys2Proof.Laws
end

