-- ==== Sys2Proof/Laws/Runs.lean ====
section
/-! SUPPORT. Runs of commands: how `execAll`, `takenBits` and `noTimeout` read on a first command and on two parts. -/

namespace Sys2Proof.Machine

@[simp] theorem execAll_nil (s : State) : execAll [] s = .next s := rfl

theorem execAll_cons_next {i : Instr} {s t : State} (rest : List Instr) (h : exec i s = .next t) :
    execAll (i :: rest) s = execAll rest t := by
  simp only [execAll, h]

/-- A run whose first part answers `t` goes on from `t`. -/
theorem execAll_append_next {first rest : List Instr} {s t : State} (h : execAll first s = .next t) :
    execAll (first ++ rest) s = execAll rest t := by
  induction first generalizing s with
  | nil => cases h; rfl
  | cons i first ih =>
    simp only [execAll, List.cons_append] at h ⊢
    cases hi : exec i s with
    | next u => rw [hi] at h; exact ih h
    | fault f => rw [hi] at h; cases h
    | refused r => rw [hi] at h; cases h

/-- A run that answers a next state does so through its first command. -/
theorem execAll_cons_eq_next {i : Instr} {rest : List Instr} {s t : State} (h : execAll (i :: rest) s = .next t) :
    ∃ u, exec i s = .next u ∧ execAll rest u = .next t := by
  simp only [execAll] at h
  cases hi : exec i s with
  | next u => rw [hi] at h; exact ⟨u, rfl, h⟩
  | fault f => rw [hi] at h; cases h
  | refused r => rw [hi] at h; cases h

theorem takenBits_cons_next {i : Instr} {s t : State} (rest : List Instr) (h : exec i s = .next t) :
    takenBits (i :: rest) s = takenBit i s ++ takenBits rest t := by
  simp only [takenBits, h]

theorem takenBits_append_next {first rest : List Instr} {s t : State} (h : execAll first s = .next t) :
    takenBits (first ++ rest) s = takenBits first s ++ takenBits rest t := by
  induction first generalizing s with
  | nil => cases h; rfl
  | cons i first ih =>
    obtain ⟨u, hi, hr⟩ := execAll_cons_eq_next h
    rw [List.cons_append, takenBits_cons_next _ hi, takenBits_cons_next _ hi, ih hr, List.append_assoc]

theorem noTimeout_cons_next {i : Instr} {s t : State} (rest : List Instr) (h : exec i s = .next t) :
    noTimeout (i :: rest) s = (!firesTimeout i s && noTimeout rest t) := by
  simp only [noTimeout, h]

end Sys2Proof.Machine
end

