-- ==== Sys2Proof/Tests/Slice0.lean ====
section
/-! SUPPORT. The model's own tests: the check of terms, words written out from the opcode table, one step on small
states with the results of 95_test_vectors.md, and for every statement with hypotheses a state that meets them. -/

set_option maxRecDepth 4000

namespace Sys2Proof.Tests

open Sys2Proof.Machine

/-- The reset state with another record. -/
def at' (b : Block) : State := { State.reset with blk := b }

/-- The buffer of the vectors' example packet, with a last byte. -/
def packet (b1 last : Byte) : Memory := [(0, 0x01#8), (1, b1), (2, 0x45#8), (3, 0x32#8), (4, last)]

/-- WAIT with a LOW sample seen. -/
def waiting : Block := { Block.reset with sstate := .wait, wasLow := true }

/-- The sampler in ACQ with a count. -/
def acquiring (n : Nat) : Block := { Block.reset with sstate := .acq, cnt := n }

/-- The sampler in GAP with a count. -/
def inGap (n : Nat) : Block := { Block.reset with sstate := .gap, cnt := n }

/-- A pending event in IDLE. -/
def pending (bit : Bool) : Block := { Block.reset with evtValid := true, evtBit := bit }

/-- A pending event in SEEK. -/
def seeking (bit : Bool) : Block := { pending bit with fstate := .seek, hist := 0xFF#8, tmo := 30 }

/-- A pending event in ACC at a position, over the buffer of vector DC11. -/
def accumulating (bit : Bool) (byte : Fin 6) (pos : Fin 8) (tmo : Nat) : Block :=
  { pending bit with
    fstate := .acc, hist := 0xFE#8, bytePos := byte, bitPos := pos, tmo := tmo
    mem := packet 0x23#8 0x38#8 }

/-- A completed packet. -/
def completed : Block :=
  { Block.reset with bytePos := 5, pktReady := true, mem := packet 0x23#8 0x71#8 }

/-! ## Terms: each check of WellFormed refuses an ill-formed term -/

theorem test_rdbyte_index_above_four_is_ill_formed : ¬ WellFormed (.rdbyte 5#3) ∧ WellFormed (.rdbyte 4#3) := by decide
theorem test_rdstat_selector_above_nine_is_ill_formed : ¬ WellFormed (.rdstat 10#4) ∧ WellFormed (.rdstat 9#4) := by
  decide

/-! ## Words: the rows of the opcode table, bit by bit -/

theorem test_word_tick_low : decodeWord 0b00010000#8 = .ok (.tick false) := rfl
theorem test_word_tick_high : decodeWord 0b00010001#8 = .ok (.tick true) := rfl
theorem test_word_decode : decodeWord 0b00100000#8 = .ok .decode := rfl
theorem test_word_poll : decodeWord 0b00110000#8 = .ok .poll := rfl
theorem test_word_rdbyte : decodeWord 0b01000010#8 = .ok (.rdbyte 2#3) := rfl
theorem test_word_ack : decodeWord 0b01010000#8 = .ok .ack := rfl
theorem test_word_crc : decodeWord 0b01100000#8 = .ok .crc := rfl
theorem test_word_valid : decodeWord 0b01110000#8 = .ok .valid := rfl
theorem test_word_sid : decodeWord 0b10000000#8 = .ok .sid := rfl
theorem test_word_hum : decodeWord 0b10010000#8 = .ok .hum := rfl
theorem test_word_temp : decodeWord 0b10100000#8 = .ok .temp := rfl
theorem test_word_rdstat : decodeWord 0b11100110#8 = .ok (.rdstat 6#4) := rfl
theorem test_word_reset : decodeWord 0b11110000#8 = .ok .reset := rfl

/-- One word of every group of rule R90. -/
theorem test_reserved_words :
    decodeWord 0b00000000#8 = .error .opcode ∧ decodeWord 0b11010101#8 = .error .opcode ∧
    decodeWord 0b00010010#8 = .error .tickArgument ∧ decodeWord 0b11110001#8 = .error .argument ∧
    decodeWord 0b01000101#8 = .error .packetIndex ∧ decodeWord 0b01001000#8 = .error .packetIndex ∧
    decodeWord 0b11101010#8 = .error .selector := ⟨rfl, rfl, rfl, rfl, rfl, rfl, rfl⟩

theorem test_table_word : decodeTableWord 8 0x44 = some (.rdbyte 4#3) ∧ decodeTableWord 8 0x45 = none := ⟨rfl, rfl⟩

/-- The word placed for the next fetch runs as the first command after reset. -/
theorem test_first_command_after_reset :
    step (State.reset.withFetchWord 8 0x10) = .next (at' { Block.reset with wasLow := true }) := rfl

/-! ## One step of each command, with the results of 95_test_vectors.md -/

/-- Vector T8: width 3 is the greatest of the logic-1 range. -/
theorem test_tick_classifies_the_greatest_one_width :
    exec (.tick false) (at' (acquiring 2)) =
      .next (at' { Block.reset with sstate := .gap, evtValid := true, evtBit := true }) := rfl

/-- Vectors T27 and T28: the timeout counts to 600 and fires on the next TICK. -/
theorem test_tick_fires_the_timeout_after_its_maximum :
    execAll [.tick false, .tick false] (at' { waiting with fstate := .seek, hist := 0xFF#8, tmo := 599 }) =
      .next (at' { waiting with fstate := .idle, hist := 0xFF#8, tmo := 0 }) := rfl

/-- Vector DC12: the last bit completes the packet. -/
theorem test_decode_completes_the_packet :
    exec .decode (at' (accumulating true 4 7 300)) =
      .next { at' { completed with evtBit := true, hist := 0xFE#8 } with result := some 1#16 } := rfl

/-- Vector DC6: a 0 in SEEK is a match. -/
theorem test_decode_matches_the_sync_pattern :
    exec .decode (at' (seeking false)) =
      .next { at' { Block.reset with fstate := .acc, hist := 0xFE#8, bitPos := 1, tmo := 30 } with
        result := some 0#16 } := rfl

/-- After program P2, RDBYTE 4 returns 0x71. -/
theorem test_rdbyte_reads_the_last_byte :
    exec (.rdbyte 4#3) (at' completed) = .next { at' completed with result := some 0x71#16 } := rfl

theorem test_poll_reads_the_flag : exec .poll (at' completed) = .next { at' completed with result := some 1#16 } := rfl

theorem test_ack_clears_the_flag : exec .ack (at' completed) = .next (at' { completed with pktReady := false }) := rfl

theorem test_crc_of_the_example : exec .crc (at' completed) = .next { at' completed with result := some 0x71#16 } := rfl

/-- The vectors of bytes 0x12, 0x34, 0x56, 0x78 and of the single bits of byte 3. -/
theorem test_crc_vectors :
    crc8 0x12#8 0x34#8 0x56#8 0x78#8 = 0x37#8 ∧ crc8 0#8 0#8 0#8 0x01#8 = 0x31#8 ∧ crc8 0#8 0#8 0#8 0x80#8 = 0x7A#8 :=
  ⟨rfl, rfl, rfl⟩

theorem test_valid_of_the_example : exec .valid (at' completed) = .next { at' completed with result := some 1#16 } := rfl

/-- Rule R162's second example. -/
theorem test_valid_refuses_a_wrong_trailer :
    exec .valid (at' { completed with mem := packet 0x23#8 0x80#8 }) =
      .next { at' { completed with mem := packet 0x23#8 0x80#8 } with result := some 0#16 } := rfl

/-- Example L1-1: 0x81, 0x23 is identifier 0x812. -/
theorem test_sid_of_the_example :
    exec .sid (at' { Block.reset with mem := [(0, 0x81#8), (1, 0x23#8)] }) =
      .next { at' { Block.reset with mem := [(0, 0x81#8), (1, 0x23#8)] } with result := some 0x812#16 } := rfl

theorem test_hum_of_the_example : exec .hum (at' completed) = .next { at' completed with result := some 50#16 } := rfl

theorem test_temp_of_the_example : exec .temp (at' completed) = .next { at' completed with result := some 837#16 } := rfl

/-- Example L1-7: 0x2B, 0x45 is -837. -/
theorem test_temp_negates_the_magnitude :
    exec .temp (at' { completed with mem := packet 0x2B#8 0x71#8 }) =
      .next { at' { completed with mem := packet 0x2B#8 0x71#8 } with
        result := some 0xFCBB#16 } := rfl

/-- RDSTAT 3 reads the event slot as {valid, bit}. -/
theorem test_rdstat_reads_the_event_slot :
    exec (.rdstat 3#4) (at' (pending false)) = .next { at' (pending false) with result := some 2#16 } := rfl

theorem test_rdstat_reads_the_timeout :
    exec (.rdstat 8#4) (at' (seeking true)) = .next { at' (seeking true) with result := some 30#16 } := rfl

theorem test_reset_loads_S0 : exec .reset (at' (accumulating true 4 7 300)) = .next (at' Block.reset) := rfl

/-- Rules R194 and R252: RDSTAT 8 after RESET returns 0, also for a counter wider than the result bus. -/
theorem test_reset_then_rdstat_of_a_wide_timeout :
    execAll [.reset, .rdstat 8#4]
        { at' { seeking true with tmo := 70000 } with config := { Config.reference with tmoW := 20 } } =
      .next { at' Block.reset with config := { Config.reference with tmoW := 20 }, result := some 0#16 } := rfl

/-! ## Invariant states -/

theorem inv_reset : State.reset.Inv := ⟨by decide, by decide, by decide, by decide, rfl⟩
theorem inv_waiting : (at' waiting).Inv := ⟨by decide, by decide, by decide, by decide, rfl⟩
theorem inv_inGap_three : (at' (inGap 3)).Inv := ⟨by decide, by decide, by decide, by decide, rfl⟩
theorem inv_accumulating : (at' (accumulating true 4 7 1)).Inv := ⟨by decide, by decide, by decide, by decide, rfl⟩
theorem inv_accumulating_first : (at' { accumulating true 0 1 1 with mem := [] }).Inv :=
  ⟨by decide, by decide, by decide, by decide, rfl⟩
theorem inv_completed_pending : (at' { completed with evtValid := true }).Inv :=
  ⟨by decide, by decide, by decide, by decide, rfl⟩

/-! ## Witnesses: states and operands that meet the hypotheses of each statement, clause by clause -/

theorem witness_well_formed_configurations :
    Config.reference.wf ∧ { Config.reference with loMax := 254 }.wf ∧ { Config.reference with gapDesync := 255 }.wf ∧
    { Config.reference with tmoMax := 65534 }.wf := by decide

theorem witness_ill_formed_configurations :
    ¬ { Config.reference with loMax := 255 }.wf ∧ ¬ { Config.reference with gapDesync := 256 }.wf ∧
    ¬ { Config.reference with tmoMax := 65535 }.wf ∧ ¬ { Config.reference with hiMin := 0 }.wf ∧
    ¬ { State.reset with config := { Config.reference with gapMin := 7 } }.config.wf := by decide

/-- For the widths of the last clause of the configuration statement: the saturated count. -/
theorem witness_saturated_count : (255 : Nat) = 2 ^ Config.reference.cntW - 1 ∧ (600 : Nat) ≤ Config.reference.tmoMax := by
  decide

theorem witness_step_runs_a_command :
    (State.reset.withFetchWord 8 0x44).config.wf ∧ (State.reset.withFetchWord 8 0x44).schedule = [0x44#8] ∧
    decodeWord 0x44#8 = .ok (.rdbyte 4#3) := ⟨by decide, rfl, rfl⟩

theorem witness_step_refuses_a_reserved_word :
    (State.reset.withFetchWord 8 0x45).config.wf ∧ (State.reset.withFetchWord 8 0x45).schedule = [0x45#8] ∧
    reservedByR90 0x45#8 = true := ⟨by decide, rfl, by decide⟩

theorem witness_running_commands :
    State.reset.config.wf ∧ ∀ i ∈ [Instr.tick false, .rdbyte 4#3, .rdstat 9#4], WellFormed i := by decide

theorem witness_no_command : State.reset.config.wf ∧ State.reset.schedule = [] := ⟨by decide, rfl⟩

theorem witness_saturating_increment :
    (254 : Nat) < 2 ^ Config.reference.cntW - 1 ∧ 2 ^ Config.reference.cntW - 1 ≤ (255 : Nat) := by decide

theorem witness_tick_in_wait :
    ((at' waiting).blk.sstate = .wait ∧ (at' waiting).blk.wasLow = true ∧ (at' waiting).blk.tmo = 0) ∧
    (State.reset.blk.sstate = .wait ∧ State.reset.blk.wasLow = false) := by decide

/-- Widths 2, 3 (a 1), 4, 6 (malformed), 7, 8 (a 0) and 9 (malformed), the boundaries of vectors T7 to T13. -/
theorem witness_tick_in_acq :
    (at' (acquiring 1)).blk.sstate = .acq ∧
    [1, 2, 3, 5, 6, 7, 8, 255].map (fun n => satInc Config.reference (acquiring n).cnt) = [2, 3, 4, 6, 7, 8, 9, 255] := by
  decide

/-- Gaps 3 (below the minimum), 4, 6 (a pulse) and 7 (desynchronised), the boundaries of vectors T19 to T22. -/
theorem witness_tick_in_gap :
    (at' (inGap 2)).blk.sstate = .gap ∧
    [2, 3, 5, 6, 255].map (fun n => satInc Config.reference (inGap n).cnt) = [3, 4, 6, 7, 255] := by decide

/-- Timeouts 0 (inactive), 599 (counts) and 600 (fires). -/
theorem witness_tick_timeout :
    State.reset.blk.tmo = 0 ∧ (599 + 1 ≤ Config.reference.tmoMax) ∧ (Config.reference.tmoMax < 600 + 1) := by decide

theorem witness_tick_frame_clauses :
    (at' (pending true)).blk.evtValid = true ∧
    (timeoutStep Config.reference { waiting with fstate := .acc, tmo := 600 }).fstate ≠ .acc := by decide

theorem witness_pulse_can_start :
    State.reset.config.wf ∧ pulseCanStart Config.reference waiting ∧ pulseCanStart Config.reference (inGap 3) ∧
    pulseCanStart Config.reference (inGap 5) ∧ ¬ pulseCanStart Config.reference (inGap 2) ∧
    ¬ pulseCanStart Config.reference (inGap 6) := by decide

theorem witness_gap_length :
    (at' (inGap 0)).config.wf ∧ (at' (inGap 0)).blk.sstate = .gap ∧ (at' (inGap 0)).blk.cnt = 0 ∧
    (at' (inGap 0)).blk.evtValid = false := by decide

theorem witness_timeout_budget :
    (at' { seeking true with tmo := 1 }).blk.tmo = 1 ∧ 1 ≤ State.reset.config.tmoMax ∧
    (List.replicate 600 false).length ≤ State.reset.config.tmoMax ∧
    (List.replicate 599 true).length < State.reset.config.tmoMax := by
  simp only [List.length_replicate]
  decide

theorem witness_spacing :
    [true, false, true, false, true].length < Config.reference.gapMin + Config.reference.hiMin := by decide

theorem witness_decode_takes :
    State.reset.blk.evtValid = false ∧ (at' (pending true)).blk.evtValid = true ∧
    (∃ t, exec .decode (at' (pending true)) = .next t) ∧
    ((at' (accumulating true 4 7 300)).blk.fstate = .acc → (at' (accumulating true 4 7 300)).blk.bytePos.val < 5) :=
  ⟨rfl, rfl, ⟨_, rfl⟩, by decide⟩

theorem witness_decode_in_idle : ∀ bit, (at' (pending bit)).blk.evtValid = true ∧ (at' (pending bit)).blk.fstate = .idle ∧
    (at' (pending bit)).blk.evtBit = bit := by decide

theorem witness_decode_in_seek : ∀ bit, (at' (seeking bit)).blk.evtValid = true ∧ (at' (seeking bit)).blk.fstate = .seek ∧
    syncMatch (shiftIn (at' (seeking bit)).blk.hist bit) = !bit := by decide

/-- The first position of byte 0, a position inside a byte and the last position of byte 4. -/
theorem witness_decode_in_acc :
    ∀ x ∈ [((0 : Fin 6), (1 : Fin 8)), (2, 6), (4, 7)], (at' (accumulating true x.1 x.2 1)).blk.evtValid = true ∧
      (at' (accumulating true x.1 x.2 1)).blk.fstate = .acc ∧ (at' (accumulating true x.1 x.2 1)).blk.bytePos.val < 5 := by
  decide

theorem witness_completed_positions_stay :
    (at' completed).blk.bytePos.val = 5 ∧ (∃ t, exec .ack (at' completed) = .next t) ∧ Instr.ack ≠ .reset :=
  ⟨rfl, ⟨_, rfl⟩, by decide⟩

theorem witness_decode_result :
    (∃ t, exec .decode (at' (accumulating true 4 7 1)) = .next t ∧ t.blk.bytePos.val = 5) ∧
    (∃ t, exec .decode (at' (accumulating true 4 6 1)) = .next t ∧ t.blk.bytePos.val ≠ 5) :=
  ⟨⟨_, rfl, by decide⟩, ⟨_, rfl, by decide⟩⟩

theorem witness_decode_stops : (at' (accumulating true 5 0 1)).blk.evtValid = true ∧
    (at' (accumulating true 5 0 1)).blk.fstate = .acc ∧ (at' (accumulating true 5 0 1)).blk.bytePos.val = 5 := by decide

/-- The least well-formed thresholds: a 1 is one HIGH sample, a 0 is two, a gap is one LOW sample. -/
def quick : Config :=
  { Config.reference with hiMin := 1, hiMax := 1, loMin := 2, loMax := 2, gapMin := 1, gapDesync := 2 }

/-- WAIT with a LOW sample seen, under the least thresholds. -/
def quickWaiting : State := { at' waiting with config := quick }

/-- The first 39 bits of the packet 0x7F, 0xFF, 0xFF, 0xFF, 0xFF, each taken at once, and the last pulse. -/
def quickRun : List Instr :=
  [.tick true, .tick true, .tick false, .decode] ++
    (List.replicate 38 [Instr.tick true, .tick false, .decode]).flatten ++ [.tick true, .tick false]

theorem witness_frame_bits :
    quickWaiting.Inv ∧ quickWaiting.blk.fstate ≠ .acc ∧ (0x7F#8).getLsbD 7 = false ∧ .reset ∉ quickRun ∧
    noTimeout quickRun quickWaiting = true ∧
    ∃ u, execAll quickRun quickWaiting = .next u ∧ u.blk.evtValid = true ∧
      takenBits quickRun quickWaiting ++ [u.blk.evtBit] =
        List.replicate 0 true ++ false :: bitsAfterSync 0x7F#8 0xFF#8 0xFF#8 0xFF#8 0xFF#8 :=
  ⟨⟨by decide, by decide, by decide, by decide, rfl⟩, by decide, rfl, by decide, rfl, _, rfl, rfl, rfl⟩

/-- The state of vectors X1 and X2. -/
def racing : State := at' { accumulating true 4 7 600 with sstate := .gap, cnt := 2 }

theorem witness_race :
    racing.Inv ∧ racing.blk.fstate = .acc ∧ racing.blk.bytePos.val = 4 ∧ racing.blk.bitPos.val = 7 ∧
      racing.blk.evtValid = true ∧ racing.blk.sstate ≠ .acq ∧ racing.blk.tmo = racing.config.tmoMax :=
  ⟨⟨by decide, by decide, by decide, by decide, rfl⟩, by decide⟩

/-- The first and the last bit of the checksummed bytes. -/
theorem witness_single_bit_flip :
    exec .valid State.reset = .next { State.reset with result := some 1#16 } ∧
    (at' { Block.reset with mem := [(0, 0x01#8)] }).blk.pkt 0 = State.reset.blk.pkt 0 ^^^ BitVec.twoPow 8 0 ∧
    (∀ a < 5, a ≠ 0 → (at' { Block.reset with mem := [(0, 0x01#8)] }).blk.pkt a = State.reset.blk.pkt a) ∧
    (at' { Block.reset with mem := [(3, 0x80#8)] }).blk.pkt 3 = State.reset.blk.pkt 3 ^^^ BitVec.twoPow 8 7 ∧
    (∀ a < 5, a ≠ 3 → (at' { Block.reset with mem := [(3, 0x80#8)] }).blk.pkt a = State.reset.blk.pkt a) :=
  ⟨rfl, by decide, by decide, by decide, by decide⟩

theorem witness_valid_both_ways :
    crc8 (completed.pkt 0) (completed.pkt 1) (completed.pkt 2) (completed.pkt 3) = completed.pkt 4 ∧
    crc8 (completed.pkt 0) (completed.pkt 1) (completed.pkt 2) (completed.pkt 3) ≠ (accumulating true 4 7 1).pkt 4 := by
  decide

theorem witness_sid_clauses :
    (completed.pkt 0).getLsbD 7 = false ∧ ({ Block.reset with mem := [(0, 0x81#8), (1, 0x23#8)] } : Block).pkt 0 = 0x81#8 ∧
    ({ Block.reset with mem := [(0, 0x81#8), (1, 0x23#8)] } : Block).pkt 1 = 0x23#8 := by decide

theorem witness_hum_clause : completed.pkt 3 = 0x32#8 := by decide

theorem witness_temp_clauses :
    (0x2B#8).getLsbD 3 = true ∧ (completed.pkt 1).getLsbD 3 = false ∧ (0x08#8).toNat % 16 = 8 ∧
    State.reset.blk.pkt 2 = 0#8 ∧ completed.pkt 1 = 0x23#8 ∧ completed.pkt 2 = 0x45#8 := by decide

/-- Two states with one packet that differ in the frame state, the flags and the timeout. -/
theorem witness_extractors :
    isExtractor .temp = true ∧ isExtractor .crc = true ∧
    ∀ a < 5, (at' { seeking true with mem := completed.mem }).blk.pkt a = (at' completed).blk.pkt a := by decide

theorem witness_readers :
    isReader (.rdstat 9#4) = true ∧ (∃ t, exec (.rdstat 9#4) (at' completed) = .next t) ∧
    (at' (pending true)).blk.evtValid = true ∧ (∃ t, exec .decode (at' (pending true)) = .next t) :=
  ⟨rfl, ⟨_, rfl⟩, rfl, ⟨_, rfl⟩⟩

theorem witness_poll_after_completion :
    (∃ t, exec .decode (at' (accumulating true 4 7 1)) = .next t ∧ t.result = some 1#16) ∧
    (∃ t, exec (.tick true) (at' completed) = .next t ∧ Instr.tick true ≠ .decode ∧ Instr.tick true ≠ .ack ∧
      Instr.tick true ≠ .reset) := ⟨⟨_, rfl, rfl⟩, ⟨_, rfl, by decide, by decide, by decide⟩⟩

theorem witness_rdbyte :
    (4#3).toNat ≤ 4 ∧ ((0x45 : Nat) ≤ 0x45 ∧ (0x4F : Nat) ≤ 0x4F) ∧ (at' (accumulating true 4 7 1)).Inv ∧
    (at' (accumulating true 4 7 1)).blk.fstate = .acc ∧ (at' { accumulating true 0 1 1 with mem := [] }).Inv :=
  ⟨by decide, by decide, inv_accumulating, rfl, inv_accumulating_first⟩

theorem witness_reserved_operands : 4 < (5#3).toNat ∧ 4 < (7#3).toNat ∧ 9 < (10#4).toNat ∧ 9 < (15#4).toNat := by decide

theorem witness_ack : ∃ t, exec .ack (at' completed) = .next t := ⟨_, rfl⟩

theorem witness_rdstat :
    (9#4).toNat ≤ 9 ∧ State.reset.blk.sstate = .wait ∧ (at' (acquiring 1)).blk.sstate = .acq ∧
    (at' (inGap 0)).blk.sstate = .gap ∧ State.reset.config.cntW ≤ 16 ∧ State.reset.config.tmoW ≤ 16 ∧
    (at' { acquiring 65535 with tmo := 65535 }).blk.cnt < 2 ^ 16 ∧
    (at' { acquiring 65535 with tmo := 65535 }).blk.tmo < 2 ^ 16 ∧
    State.reset.blk.fstate = .idle ∧ (at' (seeking true)).blk.fstate = .seek ∧
    (at' (accumulating true 2 3 1)).blk.fstate = .acc := by decide

theorem witness_invariant_step :
    (State.reset.withFetchWord 8 0x10).Inv ∧ ∃ t, step (State.reset.withFetchWord 8 0x10) = .next t :=
  ⟨inv_reset, _, rfl⟩

theorem witness_reachable :
    Config.reference.wf ∧ ∃ t, Host.Core.run core 2
      ({ State.powerOn Config.reference with schedule := [0x10#8, 0x11#8] } : State) = .next t := ⟨by decide, _, rfl⟩

theorem witness_not_stuck :
    State.reset.Inv ∧ WellFormed (.rdstat 9#4) ∧
    step (State.reset.withFetchWord 8 0x00) = .refused (.reservedWord .opcode) := ⟨inv_reset, by decide, rfl⟩

theorem witness_domains :
    (∃ t, exec .decode (at' (pending true)) = .next t ∧ Instr.decode.domain = .cooperative) ∧
    (∃ t, exec (.tick true) (at' waiting) = .next t ∧ (Instr.tick true).domain = .tick ∧ Instr.tick true ≠ .decode) ∧
    (∃ t, exec .ack (at' completed) = .next t ∧ Instr.ack ≠ .decode ∧ Instr.ack.domain = .cooperative) :=
  ⟨⟨_, rfl, rfl⟩, ⟨_, rfl, rfl, by decide⟩, ⟨_, rfl, by decide, rfl⟩⟩

theorem witness_completed_packet :
    (at' { completed with evtValid := true }).Inv ∧ (at' completed).blk.pktReady = true ∧
    (∃ t, exec .decode (at' { completed with evtValid := true }) = .next t ∧ t.blk.fstate = .acc) ∧
    (∃ t, exec .ack (at' completed) = .next t ∧ t.blk.fstate ≠ .acc) :=
  ⟨inv_completed_pending, by decide, ⟨_, rfl, by decide⟩, ⟨_, rfl, by decide⟩⟩

theorem witness_malformed :
    (at' (acquiring 3)).Inv ∧ meetsCondition Config.reference (acquiring 3) (.tick false) .malformed = true :=
  ⟨⟨by decide, by decide, by decide, by decide, rfl⟩, by decide⟩

theorem witness_desync :
    (at' (inGap 6)).Inv ∧ meetsCondition Config.reference (inGap 6) (.tick true) .desync = true ∧
    meetsCondition Config.reference (inGap 6) (.tick true) .pktTimeout = false :=
  ⟨⟨by decide, by decide, by decide, by decide, rfl⟩, by decide⟩

theorem witness_no_preamble :
    (at' (seeking true)).Inv ∧ meetsCondition Config.reference (seeking true) .decode .noPreamble = true ∧
    meetsCondition Config.reference (seeking true) .decode .pktTimeout = false :=
  ⟨⟨by decide, by decide, by decide, by decide, rfl⟩, by decide⟩

/-- The timeout fires with an event pending, so that the next DECODE takes one. -/
theorem witness_pkt_timeout :
    (at' { seeking true with tmo := 600 }).Inv ∧
    meetsCondition Config.reference { seeking true with tmo := 600 } (.tick true) .pktTimeout = true ∧
    (timeoutStep Config.reference (samplerStep Config.reference true { seeking true with tmo := 600 })).evtValid = true :=
  ⟨⟨by decide, by decide, by decide, by decide, rfl⟩, by decide⟩

theorem witness_checksum :
    (at' { Block.reset with mem := [(4, 0x01#8)] }).Inv ∧
    meetsCondition Config.reference { Block.reset with mem := [(4, 0x01#8)] } .valid .checksum = true :=
  ⟨⟨by decide, by decide, by decide, by decide, rfl⟩, by decide⟩

theorem witness_evt_overrun :
    (at' { acquiring 6 with evtValid := true }).Inv ∧
    meetsCondition Config.reference { acquiring 6 with evtValid := true } (.tick false) .evtOverrun = true :=
  ⟨⟨by decide, by decide, by decide, by decide, rfl⟩, by decide⟩

theorem witness_send : (at' waiting).Inv ∧ pulseCanStart (at' waiting).config (at' waiting).blk ∧ (at' (inGap 3)).Inv :=
  ⟨inv_waiting, by decide, inv_inGap_three⟩

/-- Both values of bit 7 of the first byte are met by some byte. -/
theorem witness_frame :
    (at' waiting).Inv ∧ (at' waiting).blk.fstate = .idle ∧ pulseCanStart (at' waiting).config (at' waiting).blk ∧
    41 * ((at' waiting).config.loMin + (at' waiting).config.gapMin) < (at' waiting).config.tmoMax ∧
    (0x7F#8).getLsbD 7 = false ∧ (0x80#8).getLsbD 7 = true := ⟨inv_waiting, by decide⟩

end Sys2Proof.Tests
end

section
/-! PROOFS. The statements of 00_scope.md: which configurations are well formed and what rule R8's conditions ensure,
and that no well-formed command is stuck (rule R15). -/

/-! ### Configurations (rule R8) -/

namespace Sys2Proof

/-- The conditions of rule R8 without truncated subtraction. -/
theorem Config.wf_iff (c : Config) :
    c.wf ↔
      (1 ≤ c.hiMin ∧ c.hiMin ≤ c.hiMax ∧ c.hiMax < c.loMin ∧ c.loMin ≤ c.loMax ∧ c.loMax + 1 < 2 ^ c.cntW) ∧
      (1 ≤ c.gapMin ∧ c.gapMin < c.gapDesync ∧ c.gapDesync + 1 ≤ 2 ^ c.cntW) ∧
      (1 ≤ c.tmoMax ∧ c.tmoMax + 2 ≤ 2 ^ c.tmoW) := by
  simp only [Config.wf, Config.cntMax]
  generalize 2 ^ c.cntW = m
  generalize 2 ^ c.tmoW = n
  omega

theorem Config.reference_wf : Config.reference.wf := by decide

section
variable {c : Config} {w : Nat}

/-- The logic-1 range ends below the logic-0 range. -/
theorem Config.wf.pulse_ranges_disjoint (h : c.wf) :
    ¬ ((c.hiMin ≤ w ∧ w ≤ c.hiMax) ∧ (c.loMin ≤ w ∧ w ≤ c.loMax)) := by
  obtain ⟨⟨-, -, hsep, -, -⟩, -, -⟩ := h
  omega

/-- A saturated count is above both pulse ranges and desynchronises. -/
theorem Config.wf.saturated_count (h : c.wf) (hw : w = 2 ^ c.cntW - 1) :
    ¬ (c.hiMin ≤ w ∧ w ≤ c.hiMax) ∧ ¬ (c.loMin ≤ w ∧ w ≤ c.loMax) ∧ c.gapDesync ≤ w := by
  obtain ⟨⟨-, -, hsep, hlo, hloMax⟩, ⟨-, -, hgap⟩, -⟩ := c.wf_iff.mp h
  omega

/-- Up to `TMO_MAX` the timeout counter stays below the greatest value of its field. -/
theorem Config.wf.timeout_below_field_maximum (h : c.wf) (hw : w ≤ c.tmoMax) : w < 2 ^ c.tmoW - 1 := by
  obtain ⟨-, -, hpos, hmax⟩ := h
  omega

end

end Sys2Proof

namespace Sys2Proof.Machine

theorem build_of_not_wf {c : Config} (h : ¬ c.wf) : build c = .refused .illFormedConfiguration := if_neg h

/-- Settles O3. -/
theorem illFormedConfigurationIsRefused : Obligations.IllFormedConfigurationIsRefused :=
  ⟨Config.wf_iff, fun _ => build_of_not_wf, Config.reference_wf, fun _ h _ =>
    ⟨h.pulse_ranges_disjoint, h.saturated_count, h.timeout_below_field_maximum⟩⟩

end Sys2Proof.Machine

/-! ### What the decoder answers (rules R87 to R90) -/

namespace Sys2Proof

section
variable {arg : BitVec 4} {i j : Instr}

theorem wellFormed_of_decodeTick (h : decodeTick arg = .ok i) : WellFormed i := by
  unfold decodeTick at h
  split at h
  · cases h; rfl
  · cases h

theorem wellFormed_of_decodePlain (hj : WellFormed j) (h : decodePlain j arg = .ok i) : WellFormed i := by
  unfold decodePlain at h
  split at h
  · cases h; exact hj
  · cases h

theorem wellFormed_of_decodeRdbyte (h : decodeRdbyte arg = .ok i) : WellFormed i := by
  unfold decodeRdbyte at h
  split at h
  · next hi => cases h; exact decide_eq_true hi.2
  · cases h

theorem wellFormed_of_decodeRdstat (h : decodeRdstat arg = .ok i) : WellFormed i := by
  unfold decodeRdstat at h
  split at h
  · next hk => cases h; exact decide_eq_true hk
  · cases h

end

/-- The decoder answers well-formed commands only: one row of rule R89 after the other. -/
theorem wellFormed_of_decodeWord {w : CommandWord} {i : Instr} (h : decodeWord w = .ok i) : WellFormed i := by
  unfold decodeWord at h
  split at h
  · exact wellFormed_of_decodeTick h
  · exact wellFormed_of_decodePlain (j := .decode) rfl h
  · exact wellFormed_of_decodePlain (j := .poll) rfl h
  · exact wellFormed_of_decodeRdbyte h
  · exact wellFormed_of_decodePlain (j := .ack) rfl h
  · exact wellFormed_of_decodePlain (j := .crc) rfl h
  · exact wellFormed_of_decodePlain (j := .valid) rfl h
  · exact wellFormed_of_decodePlain (j := .sid) rfl h
  · exact wellFormed_of_decodePlain (j := .hum) rfl h
  · exact wellFormed_of_decodePlain (j := .temp) rfl h
  · exact wellFormed_of_decodeRdstat h
  · exact wellFormed_of_decodePlain (j := .reset) rfl h
  · cases h

end Sys2Proof

namespace Sys2Proof.Machine

/-- The ranges of rule R90 are the words the decoder gives no command for, checked on each of the 256 words. -/
theorem reservedByR90_eq_not_isOk (w : CommandWord) : reservedByR90 w = !(decodeWord w).isOk := by
  revert w
  decide

theorem reservedByR90_of_decodeWord_error {w : CommandWord} {why : Reserved} (h : decodeWord w = .error why) :
    reservedByR90 w = true := by
  rw [reservedByR90_eq_not_isOk, h]
  rfl

/-! ### No well-formed command is stuck (rule R15) -/

section
variable (s : State)

/-- A packet byte that exists can be read (rule R191). -/
theorem exec_rdbyte_of_le_four {i : BitVec 3} (hi : i.toNat ≤ 4) :
    exec (.rdbyte i) s = commit s s.blk (some (zext16 (s.blk.pkt i.toNat))) := by
  have hread : memRead s.blk.mem i.toNat = some (s.blk.pkt i.toNat) :=
    (memRead_eq_some_iff _ _ _).mpr ⟨by omega, rfl⟩
  simp only [exec, execRdbyte, hread]

/-- Each selector of rule R193 names a status value. -/
theorem statusValue_of_le_nine (c : Config) (b : Block) {k : BitVec 4} (hk : k.toNat ≤ 9) :
    ∃ v, statusValue c b k = some v := by
  unfold statusValue
  generalize k.toNat = n at hk
  interval_cases n <;> exact ⟨_, rfl⟩

theorem exec_rdstat_of_statusValue {k : BitVec 4} {v : Result} (hv : statusValue s.config s.blk k = some v) :
    exec (.rdstat k) s = commit s s.blk (some v) := by
  simp only [exec, execRdstat, hv]

/-- DECODE answers but in the one state whose byte position addresses no packet byte (rule R50; log entry 8). -/
theorem exec_decode_answers_or_faults :
    (∃ t, exec .decode s = .next t) ∨
    (s.blk.fstate = .acc ∧ s.blk.bytePos = 5 ∧ exec .decode s = .fault .noPacketByte) := by
  rw [exec_decode]
  obtain ⟨-, h⟩ | ⟨-, -, h⟩ | ⟨-, -, h⟩ | ⟨-, hacc, hpos, h⟩ | ⟨-, -, -, b, -, h⟩ := execDecode_cases s
  · exact .inl ⟨_, h⟩
  · exact .inl ⟨_, h⟩
  · exact .inl ⟨_, h⟩
  · exact .inr ⟨hacc, hpos, h⟩
  · split at h
    · exact .inl ⟨_, h⟩
    · exact .inl ⟨_, h⟩

/-- In any state a well-formed command answers a next state, or is a DECODE that meets the fault of log entry 8. -/
theorem exec_answers_or_faults {i : Instr} (hi : WellFormed i) :
    (∃ t, exec i s = .next t) ∨
    (s.blk.fstate = .acc ∧ s.blk.bytePos = 5 ∧ exec i s = .fault .noPacketByte) := by
  cases i with
  | decode => exact exec_decode_answers_or_faults s
  | rdbyte i => exact .inl ⟨_, exec_rdbyte_of_le_four s (of_decide_eq_true hi)⟩
  | rdstat k =>
    obtain ⟨v, hv⟩ := statusValue_of_le_nine s.config s.blk (of_decide_eq_true hi)
    exact .inl ⟨_, exec_rdstat_of_statusValue s hv⟩
  | tick | poll | ack | crc | valid | sid | hum | temp | reset => exact .inl ⟨_, rfl⟩

end

section
variable {s : State} {i : Instr}

/-- Rule R40 item 3: while a packet accumulates, the byte position addresses a packet byte. -/
theorem State.Inv.bytePos_ne_five (h : s.Inv) (hacc : s.blk.fstate = .acc) : s.blk.bytePos ≠ 5 := by
  obtain ⟨-, ⟨-, -, hpos, -⟩, -⟩ := h
  intro h5
  have := hpos hacc
  simp [h5] at this

theorem exec_answers_of_inv (h : s.Inv) (hi : WellFormed i) : ∃ t, exec i s = .next t := by
  obtain hnext | ⟨hacc, hpos, -⟩ := exec_answers_or_faults s hi
  · exact hnext
  · exact absurd hpos (h.bytePos_ne_five hacc)

theorem exec_ne_refused (hi : WellFormed i) (r : Refusal) : exec i s ≠ .refused r := by
  obtain ⟨t, h⟩ | ⟨-, -, h⟩ := exec_answers_or_faults s hi <;> simp [h]

theorem step_ne_fault_of_inv (h : s.Inv) (f : Fault) : step s ≠ .fault f := by
  obtain ⟨-, hstep⟩ | ⟨-, -, hstep⟩ | ⟨-, w, rest, why, -, -, hstep⟩ | ⟨-, w, rest, i, -, hd, hstep⟩ := step_cases s
  · simp [hstep]
  · simp [hstep]
  · simp [hstep]
  · -- the invariant does not read the schedule
    have hinv : State.Inv { s with schedule := rest } := h
    obtain ⟨t, ht⟩ := exec_answers_of_inv hinv (wellFormed_of_decodeWord hd)
    simp [hstep, ht]

theorem step_refused_cases {r : Refusal} (h : step s = .refused r) :
    (∃ w rest why, s.schedule = w :: rest ∧ reservedByR90 w = true ∧ r = .reservedWord why) ∨
    (¬ s.config.wf ∧ r = .illFormedConfiguration) := by
  obtain ⟨hwf, hstep⟩ | ⟨-, -, hstep⟩ | ⟨-, w, rest, why, hs, hd, hstep⟩ | ⟨-, w, rest, i, -, hd, hstep⟩ :=
    step_cases s <;> rw [hstep] at h
  · cases h
    exact .inr ⟨hwf, rfl⟩
  · cases h
  · cases h
    exact .inl ⟨w, rest, why, hs, reservedByR90_of_decodeWord_error hd, rfl⟩
  · exact absurd h (exec_ne_refused (wellFormed_of_decodeWord hd) r)

end

/-- Settles O52: the one fault is excluded by rule R40 item 3, and no decoded word is refused. -/
theorem noWellFormedCommandIsStuck : Obligations.NoWellFormedCommandIsStuck :=
  ⟨fun _ _ => exec_answers_of_inv, fun _ f h => step_ne_fault_of_inv h f, fun _ _ => step_refused_cases⟩

end Sys2Proof.Machine
end

section
/-! PROOFS. The statements of 10_state.md: the values of the reset state `S0` (rule R41). -/

namespace Sys2Proof.Machine

/-- The empty list of cells is the buffer of zero bytes: every address reads as its unlisted value. -/
@[simp] theorem Block.reset_pkt (a : Nat) : Block.reset.pkt a = 0x00#8 := rfl

/-- Rules R29 and R41: each of the five packet bytes is readable at reset, as 0x00. -/
theorem memRead_reset {i : Nat} (hi : i < 5) : memRead Block.reset.mem i = some 0x00#8 :=
  (memRead_eq_some_iff _ _ _).mpr ⟨hi, (Block.reset_pkt i).symm⟩

/-- Settles O1: the record's own fields are literals of `Block.reset`; the packet bytes are read through `memRead`. -/
theorem resetLeavesEveryFieldOfS0 : Obligations.ResetLeavesEveryFieldOfS0 := by
  have hpacket : ∀ i < 5, memRead State.reset.blk.mem i = some 0x00#8 := fun _ hi => memRead_reset hi
  exact ⟨rfl, rfl, rfl, rfl, rfl, rfl, rfl, rfl, rfl, hpacket, rfl, rfl⟩

end Sys2Proof.Machine
end

section
/-! PROOFS. The statement of 20_memory.md: the reading commands have no side effects, the take of DECODE has one
(rule R58). -/

namespace Sys2Proof.Machine

/-! ### Reading commands -/

/-- No command reads the result bus (rule R14; log entry 4). -/
theorem exec_with_result (i : Instr) (s : State) (r : Option Result) : exec i { s with result := r } = exec i s := by
  cases i with
  | tick | decode | poll | rdbyte | ack | crc | valid | sid | hum | temp | rdstat | reset => rfl

/-- Everything a reading command can do: put a value on the result bus, or refuse a reserved operand. -/
theorem exec_reader_cases {i : Instr} (hi : isReader i = true) (s : State) :
    (∃ v, exec i s = commit s s.blk (some v)) ∨ (∃ why, exec i s = .refused why) := by
  cases i with
  | poll | crc | valid | sid | hum | temp => exact .inl ⟨_, rfl⟩
  | rdbyte i =>
    cases hread : memRead s.blk.mem i.toNat with
    | some v => exact .inl ⟨zext16 v, by simp only [exec, execRdbyte, hread]⟩
    | none => exact .inr ⟨.reservedPacketIndex, by simp only [exec, execRdbyte, hread]⟩
  | rdstat k =>
    cases hstat : statusValue s.config s.blk k with
    | some v => exact .inl ⟨v, exec_rdstat_of_statusValue s hstat⟩
    | none => exact .inr ⟨.reservedSelector, by simp only [exec, execRdstat, hstat]⟩
  | tick | decode | ack | reset => cases hi

/-- A reading command that answers changes the result bus alone. -/
theorem exec_reader_answer {i : Instr} {s t : State} (hi : isReader i = true) (h : exec i s = .next t) :
    ∃ v, t = { s with result := some v } := by
  obtain ⟨v, hv⟩ | ⟨why, hwhy⟩ := exec_reader_cases hi s
  · exact ⟨v, (commit_next_iff s t s.blk (some v)).mp (hv.symm.trans h)⟩
  · rw [hwhy] at h
    cases h

/-! ### The take of DECODE -/

@[simp] theorem seekStep_evtValid (b : Block) (bit : Bool) : (seekStep b bit).evtValid = b.evtValid := by
  obtain ⟨-, h⟩ | ⟨-, h⟩ := seekStep_cases b bit <;> simp [h]

@[simp] theorem advancePosition_evtValid (b : Block) : (advancePosition b).evtValid = b.evtValid := by
  obtain ⟨-, h⟩ | ⟨-, h⟩ := advancePosition_cases b <;> rw [h]

theorem accStep_evtValid {b b' : Block} {bit : Bool} (h : accStep b bit = some b') : b'.evtValid = b.evtValid := by
  obtain ⟨-, hnone⟩ | ⟨-, hsome⟩ := accStep_cases b bit
  · rw [hnone] at h
    cases h
  · rw [hsome] at h
    cases h
    exact advancePosition_evtValid _

/-- A DECODE that answers leaves no event pending: it found none, or it took the one there was (rules R58, R131). -/
theorem exec_decode_evtValid {s t : State} (h : exec .decode s = .next t) : t.blk.evtValid = false := by
  rw [exec_decode] at h
  obtain ⟨hv, hd⟩ | ⟨-, -, hd⟩ | ⟨-, -, hd⟩ | ⟨-, -, -, hd⟩ | ⟨-, -, -, b, hb, hd⟩ := execDecode_cases s <;>
    rw [hd] at h
  · cases h
    exact hv
  · cases h
    simp
  · cases h
    simp
  · cases h
  · have hbv : b.evtValid = false := accStep_evtValid hb
    split at h
    · cases h
      exact hbv
    · cases h
      exact hbv

/-- Settles O41: a reader answers a state that differs from `s` on the result bus alone, and no command reads that
bus, so from there it answers the same again. -/
theorem readersChangeNoState : Obligations.ReadersChangeNoState := by
  refine ⟨fun i s t hi h => ?_, fun s t _ => exec_decode_evtValid⟩
  obtain ⟨v, rfl⟩ := exec_reader_answer hi h
  exact ⟨rfl, rfl, rfl, rfl, (exec_with_result i s (some v)).trans h⟩

end Sys2Proof.Machine
end

section
/-! PROOFS. The statement of 30_encoding.md: the reserved words are the words without a command, and a step refuses each
of them (rule R90). -/

namespace Sys2Proof.Machine

/-! ### The reserved words (rule R90) -/

section
variable {w : CommandWord}

/-- A reserved word has a group of rule R90, and only a reserved word has one. -/
theorem reservedByR90_iff_decodeWord_error : reservedByR90 w = true ↔ ∃ why, decodeWord w = .error why := by
  refine ⟨fun hw => ?_, fun ⟨_, hd⟩ => reservedByR90_of_decodeWord_error hd⟩
  cases hd : decodeWord w with
  | error why => exact ⟨why, rfl⟩
  | ok i =>
    rw [reservedByR90_eq_not_isOk, hd] at hw
    cases hw

theorem reservedByR90_iff_decodeWord_ne_ok : reservedByR90 w = true ↔ ∀ i : Instr, decodeWord w ≠ .ok i := by
  rw [reservedByR90_iff_decodeWord_error]
  cases decodeWord w with
  | error why => simp
  | ok i => simp

/-- A step on a schedule that begins with a reserved word refuses it by the name of its group. -/
theorem step_of_decodeWord_error {s : State} {rest : List CommandWord} {why : Reserved} (hc : s.config.wf)
    (hs : s.schedule = w :: rest) (hd : decodeWord w = .error why) : step s = .refused (.reservedWord why) := by
  simp only [step, if_pos hc, fetch, hs, hd]

end

/-- Counting over `n` rows of `k` numbers, row by row. -/
theorem countP_range_mul (p : Nat → Bool) (k n : Nat) :
    (List.range (k * n)).countP p =
      ((List.range n).map fun row => (List.range k).countP fun col => p (k * row + col)).sum := by
  induction n with
  | zero => rfl
  | succ n ih => simp [Nat.mul_succ, List.range_add, List.range_succ, ih, List.countP_map, Function.comp_def]

/-- How many of the 16 words of each `op`, from 0x0 to 0xF, rule R90 lists. -/
theorem reservedByR90_count_of_each_op :
    ((List.range 16).map fun op => (List.range 16).countP fun arg => reservedByR90 (BitVec.ofNat 8 (16 * op + arg))) =
      [16, 14, 15, 15, 11, 15, 15, 15, 15, 15, 15, 16, 16, 16, 6, 15] := by
  decide

theorem length_filter_reservedByR90 :
    ((List.range 256).filter fun n => reservedByR90 (BitVec.ofNat 8 n)).length = 230 := by
  rw [← List.countP_eq_length_filter, show 256 = 16 * 16 from rfl, countP_range_mul, reservedByR90_count_of_each_op]
  rfl

/-- Settles O5: the ranges of rule R90 are the words that decode to an error, and the step passes that error on. -/
theorem stepRefusesTheReservedWords : Obligations.StepRefusesTheReservedWords := by
  refine ⟨fun w => reservedByR90_iff_decodeWord_ne_ok, length_filter_reservedByR90, fun s w rest hc hs hw => ?_⟩
  obtain ⟨why, hd⟩ := reservedByR90_iff_decodeWord_error.mp hw
  exact ⟨why, step_of_decodeWord_error hc hs hd⟩

end Sys2Proof.Machine
end

section
/-! PROOFS. The statements of 40_tick.md: what TICK does in each sampler state, and its timeout step (rules R101 to R105
and R108). -/

namespace Sys2Proof.Machine

/-! ### The saturating counter (rule R101) -/

/-- Saturation: from its greatest value on the counter stays there. -/
theorem satInc_of_le {c : Config} {v : Nat} (h : c.cntMax ≤ v) : satInc c v = c.cntMax := if_neg h.not_gt

/-- Settles O12. -/
theorem saturatingIncrementStopsAtItsMaximum : Obligations.SaturatingIncrementStopsAtItsMaximum :=
  fun _ _ => ⟨satInc_of_lt, satInc_of_le⟩

/-! ### What TICK answers (rules R100, R108) -/

/-- TICK is its two steps on the record, and it always answers. -/
theorem exec_tick_answers (level : Bool) (s : State) :
    ∃ t, exec (.tick level) s = .next t ∧ t.blk = timeoutStep s.config (samplerStep s.config level s.blk) :=
  ⟨_, exec_tick level s, rfl⟩

/-- Settles O11. -/
theorem tickAnswersInEveryState : Obligations.TickAnswersInEveryState :=
  fun level s => ⟨_, exec_tick level s⟩

/-! ### The timeout step, case by case (rule R105) -/

section
variable {c : Config} {b : Block}

theorem timeoutStep_inactive (h : b.tmo = 0) : timeoutStep c b = b := if_pos h

theorem timeoutStep_counts (h : b.tmo ≠ 0) (hle : b.tmo + 1 ≤ c.tmoMax) :
    timeoutStep c b = { b with tmo := b.tmo + 1 } := by
  simp only [timeoutStep, if_neg h, if_neg hle.not_gt]

theorem timeoutStep_fires (h : b.tmo ≠ 0) (hgt : c.tmoMax < b.tmo + 1) :
    timeoutStep c b = { b with fstate := .idle, tmo := 0 } := by
  simp only [timeoutStep, if_neg h, if_pos hgt]

theorem timeoutStep_samePacket : samePacket b (timeoutStep c b) := fun _ => by simp only [timeoutStep_frame]

end

/-- Settles O16: the sampler step hands `tmo` and `fstate` on as they are, so the three cases of the timeout step are
told apart by the counter before the TICK. -/
theorem tickAdvancesThePacketTimeout : Obligations.TickAdvancesThePacketTimeout := by
  constructor
  · intro level s
    obtain ⟨t, ht, hblk⟩ := exec_tick_answers level s
    obtain ⟨hfstate, -, -, -, -, -, htmo, -⟩ := samplerStep_frame s.config level s.blk
    refine ⟨t, ht, hblk, ?inactive, ?counts, ?fires⟩ <;> rw [hblk, ← htmo]
    case inactive =>
      intro hoff
      rw [timeoutStep_inactive hoff]
      exact ⟨hoff, hfstate⟩
    case counts =>
      intro hon hle
      rw [timeoutStep_counts hon hle]
      exact ⟨rfl, hfstate⟩
    case fires =>
      intro hon hgt
      rw [timeoutStep_fires hon hgt]
      exact ⟨rfl, rfl⟩
  · intro c b
    obtain ⟨-, -, -, hvalid, hbit, hhist, hbyte, hpos, -, hready⟩ := timeoutStep_frame c b
    exact ⟨timeoutStep_samePacket, hready, hhist, hbyte, hpos, hvalid, hbit⟩

/-! ### The sampler step, one equation per case of its pseudocode (rules R102 to R104) -/

section
variable {c : Config} {b : Block}

theorem samplerStep_wait (level : Bool) (h : b.sstate = .wait) : samplerStep c level b = waitStep level b := by
  simp only [samplerStep, h]

/-- A HIGH sample after a LOW one starts a pulse. -/
theorem waitStep_rising_edge (hlow : b.wasLow = true) : waitStep true b = forgetLow (enterSampler b .acq) := by
  simp only [waitStep, hlow, if_true]

/-- A HIGH sample that no LOW one precedes is ignored. -/
theorem waitStep_high_ignored (hlow : b.wasLow = false) : waitStep true b = b := by
  simp [waitStep, hlow]

theorem waitStep_low (b : Block) : waitStep false b = noteLow b := rfl

/-- A HIGH sample goes on with the pulse. -/
theorem samplerStep_acq_high (h : b.sstate = .acq) : samplerStep c true b = countSample c b := by
  simp only [samplerStep, h, acqStep, if_true]

theorem samplerStep_acq_low (h : b.sstate = .acq) :
    samplerStep c false b = classifyPulse c (countSample c b) := by
  simp [samplerStep, h, acqStep]

/-- A pulse of the logic-1 range raises a 1. -/
theorem classifyPulse_one (h1 : c.hiMin ≤ b.cnt ∧ b.cnt ≤ c.hiMax) :
    classifyPulse c b = enterSampler (raiseEvent b true) .gap := if_pos h1

/-- A pulse of the logic-0 range raises a 0. -/
theorem classifyPulse_zero (h1 : ¬ (c.hiMin ≤ b.cnt ∧ b.cnt ≤ c.hiMax)) (h0 : c.loMin ≤ b.cnt ∧ b.cnt ≤ c.loMax) :
    classifyPulse c b = enterSampler (raiseEvent b false) .gap := by
  simp only [classifyPulse, if_neg h1, if_pos h0]

/-- A malformed pulse raises nothing. -/
theorem classifyPulse_malformed (h1 : ¬ (c.hiMin ≤ b.cnt ∧ b.cnt ≤ c.hiMax))
    (h0 : ¬ (c.loMin ≤ b.cnt ∧ b.cnt ≤ c.loMax)) : classifyPulse c b = enterSampler b .wait := by
  simp only [classifyPulse, if_neg h1, if_neg h0]

/-- A LOW sample goes on with the gap, whatever its length. -/
theorem samplerStep_gap_low (h : b.sstate = .gap) : samplerStep c false b = countSample c b := by
  simp [samplerStep, h, gapStep]

theorem samplerStep_gap_high (h : b.sstate = .gap) : samplerStep c true b = endGap c (countSample c b) := by
  simp only [samplerStep, h, gapStep, if_true]

theorem endGap_desync (hd : c.gapDesync ≤ b.cnt) : endGap c b = enterSampler b .wait := if_pos hd

/-- A gap of an accepted length ends with the first sample of the next pulse. -/
theorem endGap_pulse (hd : b.cnt < c.gapDesync) (hm : c.gapMin ≤ b.cnt) : endGap c b = enterSampler b .acq := by
  simp only [endGap, if_neg hd.not_ge, if_pos hm]

/-- A HIGH sample that comes too early is counted as gap. -/
theorem endGap_early (hd : b.cnt < c.gapDesync) (hm : b.cnt < c.gapMin) : endGap c b = b := by
  simp only [endGap, if_neg hd.not_ge, if_neg hm.not_ge]

end

/-! ### What the sampler step leaves alone (rule R106) -/

/-- The WAIT step neither reads nor writes the frame state, the event register or the timeout: it commutes with
replacing them. -/
theorem waitStep_with_cooperative (level : Bool) (b : Block) (f : FrameState) (v e : Bool) (n : Nat) :
    waitStep level { b with fstate := f, evtValid := v, evtBit := e, tmo := n } =
      { waitStep level b with fstate := f, evtValid := v, evtBit := e, tmo := n } := by
  cases level with
  | false => rfl
  | true =>
    obtain hlow | hlow := Bool.eq_false_or_eq_true b.wasLow
    · rw [waitStep_rising_edge hlow]
      exact waitStep_rising_edge hlow
    · rw [waitStep_high_ignored hlow]
      exact waitStep_high_ignored hlow

/-- The GAP step keeps `was_low` and the event slot. -/
theorem samplerStep_gap_frame (c : Config) (level : Bool) {b : Block} (h : b.sstate = .gap) :
    (samplerStep c level b).wasLow = b.wasLow ∧
    (samplerStep c level b).evtValid = b.evtValid ∧ (samplerStep c level b).evtBit = b.evtBit := by
  cases level with
  | false => simp [samplerStep_gap_low h]
  | true =>
    rw [samplerStep_gap_high h]
    obtain ⟨-, hg⟩ | ⟨-, -, hg⟩ | ⟨-, -, hg⟩ := endGap_cases c (countSample c b) <;> simp [hg]

/-- Only ACQ classifies: the WAIT and the GAP step keep the event slot. -/
theorem samplerStep_keeps_event (c : Config) (level : Bool) {b : Block} (h : b.sstate ≠ .acq) :
    (samplerStep c level b).evtValid = b.evtValid ∧ (samplerStep c level b).evtBit = b.evtBit := by
  cases hs : b.sstate with
  | wait =>
    rw [samplerStep_wait level hs]
    obtain ⟨-, -, hw⟩ | ⟨-, -, hw⟩ | ⟨-, hw⟩ := waitStep_cases level b <;> simp [hw]
  | acq => exact absurd hs h
  | gap =>
    obtain ⟨-, hevent⟩ := samplerStep_gap_frame c level hs
    exact hevent

/-- Only WAIT looks for a rising edge: the ACQ and the GAP step keep `was_low`. -/
theorem samplerStep_keeps_wasLow (c : Config) (level : Bool) {b : Block} (h : b.sstate ≠ .wait) :
    (samplerStep c level b).wasLow = b.wasLow := by
  cases hs : b.sstate with
  | wait => exact absurd hs h
  | acq =>
    cases level with
    | true => simp [samplerStep_acq_high hs]
    | false =>
      rw [samplerStep_acq_low hs]
      obtain ⟨-, hp⟩ | ⟨-, -, hp⟩ | ⟨-, -, hp⟩ := classifyPulse_cases c (countSample c b) <;> simp [hp]
  | gap =>
    obtain ⟨hlow, -⟩ := samplerStep_gap_frame c level hs
    exact hlow

/-! ### TICK in each sampler state (rules R102 to R104) -/

/-- Settles O13: the timeout step keeps what the WAIT step wrote, and with an inactive counter it does nothing. -/
theorem tickInWaitLooksForARisingEdge : Obligations.TickInWaitLooksForARisingEdge := by
  intro level s hs
  obtain ⟨t, ht, hblk⟩ := exec_tick_answers level s
  obtain ⟨hvalid, hbit⟩ := samplerStep_keeps_event s.config level (b := s.blk) (by simp [hs])
  obtain ⟨hfstate, -, -, -, -, -, htmo, -⟩ := samplerStep_frame s.config level s.blk
  rw [samplerStep_wait level hs] at hblk hvalid hbit hfstate htmo
  refine ⟨t, ht, ?rising, ?ignored, ?low, ?evtValid, ?evtBit, ?inactive, hblk, waitStep_with_cooperative level s.blk⟩
  case rising =>
    rintro rfl hlow
    simp [hblk, timeoutStep_frame, waitStep_rising_edge hlow]
  case ignored =>
    rintro rfl hlow
    simp [hblk, timeoutStep_frame, waitStep_high_ignored hlow, hs, hlow]
  case low =>
    rintro rfl
    simp [hblk, timeoutStep_frame, waitStep_low, hs]
  case evtValid => simp only [hblk, timeoutStep_frame, hvalid]
  case evtBit => simp only [hblk, timeoutStep_frame, hbit]
  case inactive =>
    intro hoff
    rw [hblk, timeoutStep_inactive (htmo.trans hoff)]
    exact ⟨hfstate, htmo.trans hoff⟩

/-- Settles O14: each clause is one case of the ACQ step, which the timeout step keeps. -/
theorem tickInAcqCountsAndClassifies : Obligations.TickInAcqCountsAndClassifies := by
  intro level s hs
  obtain ⟨t, ht, hblk⟩ := exec_tick_answers level s
  refine ⟨t, _, ht, rfl, ?high, ?one, ?zero, ?malformed, ?wasLow, Config.wf.pulse_ranges_disjoint⟩
  case high =>
    rintro rfl
    simp [hblk, timeoutStep_frame, samplerStep_acq_high hs, hs]
  case one =>
    rintro rfl h1
    have hstep := classifyPulse_one (b := countSample s.config s.blk) h1
    simp [hblk, timeoutStep_frame, samplerStep_acq_low hs, hstep]
  case zero =>
    rintro rfl h1 h0
    have hstep := classifyPulse_zero (b := countSample s.config s.blk) h1 h0
    simp [hblk, timeoutStep_frame, samplerStep_acq_low hs, hstep]
  case malformed =>
    rintro rfl h1 h0
    have hstep := classifyPulse_malformed (b := countSample s.config s.blk) h1 h0
    simp [hblk, timeoutStep_frame, samplerStep_acq_low hs, hstep]
  case wasLow =>
    simp only [hblk, timeoutStep_frame]
    exact samplerStep_keeps_wasLow s.config level (by simp [hs])

/-- Settles O15: each clause is one case of the GAP step, which the timeout step keeps. -/
theorem tickInGapCountsAndTestsOnHigh : Obligations.TickInGapCountsAndTestsOnHigh := by
  intro level s hs
  obtain ⟨t, ht, hblk⟩ := exec_tick_answers level s
  obtain ⟨hlow, hvalid, hbit⟩ := samplerStep_gap_frame s.config level hs
  refine ⟨t, _, ht, rfl, ?low, ?desync, ?pulse, ?early, ?wasLow, ?evtValid, ?evtBit⟩
  case low =>
    rintro rfl
    simp [hblk, timeoutStep_frame, samplerStep_gap_low hs, hs]
  case desync =>
    rintro rfl hd
    have hstep := endGap_desync (b := countSample s.config s.blk) hd
    simp [hblk, timeoutStep_frame, samplerStep_gap_high hs, hstep]
  case pulse =>
    rintro rfl hd hm
    have hstep := endGap_pulse (b := countSample s.config s.blk) hd hm
    simp [hblk, timeoutStep_frame, samplerStep_gap_high hs, hstep]
  case early =>
    rintro rfl hd hm
    have hstep := endGap_early (b := countSample s.config s.blk) hd hm
    simp [hblk, timeoutStep_frame, samplerStep_gap_high hs, hstep, hs]
  case wasLow => simp only [hblk, timeoutStep_frame, hlow]
  case evtValid => simp only [hblk, timeoutStep_frame, hvalid]
  case evtBit => simp only [hblk, timeoutStep_frame, hbit]

end Sys2Proof.Machine
end

section
/-! PROOFS. The statements of 41_decode.md: the take, what DECODE does in each frame state, completion, and the result
(rules R131 to R136). -/

namespace Sys2Proof.Machine

/-! ### The bits of a shifted byte (rules R55, R74) -/

theorem shiftIn_getLsbD_zero (v : Byte) (bit : Bool) : (shiftIn v bit).getLsbD 0 = bit := by
  simp [shiftIn]

theorem shiftIn_getLsbD_succ (v : Byte) (bit : Bool) {k : Nat} (hk : k < 7) :
    (shiftIn v bit).getLsbD (k + 1) = v.getLsbD k := by
  have hk' : k + 1 < 8 := by omega
  simp [shiftIn, hk', BitVec.getLsbD_eq_getElem (show k < 8 by omega)]

/-- The sync pattern, bit by bit. -/
theorem syncMatch_iff (h : Byte) :
    syncMatch h = true ↔ h.getLsbD 2 = true ∧ h.getLsbD 1 = true ∧ h.getLsbD 0 = false := by
  revert h
  decide

/-! ### The SEEK step (rule R133) -/

section
variable {b : Block} {bit : Bool}

theorem seekStep_match (h : syncMatch (shiftIn b.hist bit) = true) :
    seekStep b bit = startFrame (pushHistory b bit) := if_pos h

theorem seekStep_no_match (h : ¬ syncMatch (shiftIn b.hist bit) = true) : seekStep b bit = pushHistory b bit := if_neg h

/-- Match or not, the SEEK step shifts the history and leaves the sampler, the event bit and the timeout alone. -/
theorem seekStep_frame (b : Block) (bit : Bool) :
    (seekStep b bit).hist = shiftIn b.hist bit ∧ (seekStep b bit).tmo = b.tmo ∧
    (seekStep b bit).evtBit = b.evtBit ∧ (seekStep b bit).sstate = b.sstate ∧ (seekStep b bit).cnt = b.cnt ∧
    (seekStep b bit).wasLow = b.wasLow := by
  obtain ⟨-, h⟩ | ⟨-, h⟩ := seekStep_cases b bit <;> simp [h]

/-- Without a match the buffer and both positions stay. -/
theorem seekStep_keeps_packet (h : (seekStep b bit).fstate ≠ .acc) :
    (seekStep b bit).bytePos = b.bytePos ∧ (seekStep b bit).bitPos = b.bitPos ∧ (seekStep b bit).mem = b.mem := by
  obtain ⟨-, hs⟩ | ⟨-, hs⟩ := seekStep_cases b bit <;> rw [hs] at h ⊢
  · exact absurd rfl h
  · exact ⟨rfl, rfl, rfl⟩

end

/-! ### The ACC step and its end (rules R134, R135) -/

theorem advancePosition_frame (b : Block) :
    (advancePosition b).mem = b.mem ∧ (advancePosition b).hist = b.hist ∧ (advancePosition b).fstate = b.fstate ∧
    (advancePosition b).tmo = b.tmo ∧ (advancePosition b).pktReady = b.pktReady ∧
    (advancePosition b).evtBit = b.evtBit ∧ (advancePosition b).sstate = b.sstate ∧
    (advancePosition b).cnt = b.cnt ∧ (advancePosition b).wasLow = b.wasLow := by
  obtain ⟨-, h⟩ | ⟨-, h⟩ := advancePosition_cases b <;> simp [h]

/-- The record after an ACC step whose position addresses a packet byte. -/
def accumulate (b : Block) (bit : Bool) : Block :=
  advancePosition { b with mem := Memory.write b.mem b.bytePos.val (shiftIn (b.pkt b.bytePos.val) bit) }

/-- The record at the end of a DECODE that ran the ACC step: completed when all five bytes are there. -/
def closeFrame (b : Block) : Block := if b.bytePos = 5 then completeFrame b else b

/-- The result of a DECODE that ran the ACC step. -/
def accResult (b : Block) : Result := if b.bytePos = 5 then 1#16 else 0#16

theorem accStep_of_lt {b : Block} (bit : Bool) (hp : b.bytePos.val < 5) : accStep b bit = some (accumulate b bit) := by
  obtain ⟨h, -⟩ | ⟨-, h⟩ := accStep_cases b bit
  · omega
  · exact h

theorem finishAcc_eq (s : State) (b : Block) : finishAcc s b = commit s (closeFrame b) (some (accResult b)) := by
  unfold finishAcc closeFrame accResult
  split <;> rfl

/-- The ACC step itself leaves the frame state, the timeout and `pkt_ready` alone. -/
theorem accumulate_frame (b : Block) (bit : Bool) :
    (accumulate b bit).hist = b.hist ∧ (accumulate b bit).fstate = b.fstate ∧ (accumulate b bit).tmo = b.tmo ∧
    (accumulate b bit).pktReady = b.pktReady ∧ (accumulate b bit).evtBit = b.evtBit ∧
    (accumulate b bit).sstate = b.sstate ∧ (accumulate b bit).cnt = b.cnt ∧ (accumulate b bit).wasLow = b.wasLow := by
  simp only [accumulate, advancePosition_frame, and_self]

theorem accumulate_mem (b : Block) (bit : Bool) :
    (accumulate b bit).mem = Memory.write b.mem b.bytePos.val (shiftIn (b.pkt b.bytePos.val) bit) := by
  simp only [accumulate, advancePosition_frame]

section
variable {b : Block} {bit : Bool}

/-- After bit 7 the position goes on to the next byte. -/
theorem accumulate_byte_end (hp : b.bytePos.val < 5) (h : b.bitPos.val = 7) :
    (accumulate b bit).bitPos.val = 0 ∧ (accumulate b bit).bytePos.val = b.bytePos.val + 1 := by
  have h7 : b.bitPos = 7 := Fin.ext h
  have hlt : b.bytePos.val + 1 < 6 := by omega
  simp [accumulate, advancePosition, h7, Fin.val_add, Nat.mod_eq_of_lt hlt]

/-- Before bit 7 the position stays in its byte. -/
theorem accumulate_in_byte (h : b.bitPos.val ≠ 7) :
    (accumulate b bit).bitPos.val = b.bitPos.val + 1 ∧ (accumulate b bit).bytePos = b.bytePos := by
  have h7 : ¬ b.bitPos = 7 := fun e => h (congrArg Fin.val e)
  have hlt : b.bitPos.val + 1 < 8 := by omega
  simp [accumulate, advancePosition, h7, Fin.val_add, Nat.mod_eq_of_lt hlt]

/-- The position goes one further bit of the forty. -/
theorem accumulate_one_bit (hp : b.bytePos.val < 5) :
    8 * (accumulate b bit).bytePos.val + (accumulate b bit).bitPos.val = 8 * b.bytePos.val + b.bitPos.val + 1 := by
  by_cases h : b.bitPos.val = 7
  · obtain ⟨hbit, hbyte⟩ := accumulate_byte_end (bit := bit) hp h
    omega
  · obtain ⟨hbit, hbyte⟩ := accumulate_in_byte (bit := bit) h
    rw [hbit, hbyte, Nat.add_assoc]

/-- Byte 5 is reached exactly from byte 4 bit 7, one bit past position 39. -/
theorem accumulate_bytePos_eq_five_iff (hp : b.bytePos.val < 5) :
    (accumulate b bit).bytePos.val = 5 ↔ b.bytePos.val = 4 ∧ b.bitPos.val = 7 := by
  have hone := accumulate_one_bit (bit := bit) hp
  omega

end

/-- The end of an ACC step writes only the frame state, the timeout and `pkt_ready`. -/
theorem closeFrame_frame (b : Block) :
    (closeFrame b).mem = b.mem ∧ (closeFrame b).bytePos = b.bytePos ∧ (closeFrame b).bitPos = b.bitPos ∧
    (closeFrame b).hist = b.hist ∧ (closeFrame b).evtBit = b.evtBit ∧ (closeFrame b).sstate = b.sstate ∧
    (closeFrame b).cnt = b.cnt ∧ (closeFrame b).wasLow = b.wasLow := by
  unfold closeFrame
  split <;> simp

section
variable {b : Block}

theorem closeFrame_complete (h : b.bytePos.val = 5) : closeFrame b = completeFrame b ∧ accResult b = 1#16 :=
  ⟨if_pos (Fin.ext h), if_pos (Fin.ext h)⟩

theorem closeFrame_incomplete (h : b.bytePos.val ≠ 5) : closeFrame b = b ∧ accResult b = 0#16 :=
  ⟨if_neg fun e => h (congrArg Fin.val e), if_neg fun e => h (congrArg Fin.val e)⟩

end

/-! ### What DECODE answers (rule R130) -/

section
variable {s t : State}

theorem exec_decode_nothing_pending (hv : s.blk.evtValid = false) :
    exec .decode s = .next { s with result := some 0#16 } := by
  simp only [exec_decode, execDecode, hv, Bool.false_eq_true, if_false]
  rfl

theorem exec_decode_idle (hv : s.blk.evtValid = true) (hf : s.blk.fstate = .idle) :
    exec .decode s =
      .next ⟨s.config, seekStep (idleStep (takeEvent s.blk)) s.blk.evtBit, some 0#16, s.schedule⟩ := by
  simp only [exec_decode, execDecode, frameStep, hv, takeEvent_fstate, hf, if_true]
  rfl

theorem exec_decode_seek (hv : s.blk.evtValid = true) (hf : s.blk.fstate = .seek) :
    exec .decode s = .next ⟨s.config, seekStep (takeEvent s.blk) s.blk.evtBit, some 0#16, s.schedule⟩ := by
  simp only [exec_decode, execDecode, frameStep, hv, takeEvent_fstate, hf, if_true]
  rfl

theorem exec_decode_acc (hv : s.blk.evtValid = true) (hf : s.blk.fstate = .acc) (hp : s.blk.bytePos.val < 5) :
    exec .decode s =
      .next ⟨s.config, closeFrame (accumulate (takeEvent s.blk) s.blk.evtBit),
        some (accResult (accumulate (takeEvent s.blk) s.blk.evtBit)), s.schedule⟩ := by
  have hacc := accStep_of_lt (b := takeEvent s.blk) s.blk.evtBit hp
  simp only [exec_decode, execDecode, frameStep, hv, takeEvent_fstate, hf, if_true, hacc, finishAcc_eq]
  rfl

/-- Every way DECODE can answer. -/
theorem exec_decode_next_cases (h : exec .decode s = .next t) :
    (s.blk.evtValid = false ∧ t = { s with result := some 0#16 }) ∨
    (s.blk.evtValid = true ∧ s.blk.fstate = .idle ∧
      t = ⟨s.config, seekStep (idleStep (takeEvent s.blk)) s.blk.evtBit, some 0#16, s.schedule⟩) ∨
    (s.blk.evtValid = true ∧ s.blk.fstate = .seek ∧
      t = ⟨s.config, seekStep (takeEvent s.blk) s.blk.evtBit, some 0#16, s.schedule⟩) ∨
    (s.blk.evtValid = true ∧ s.blk.fstate = .acc ∧ s.blk.bytePos.val < 5 ∧
      t = ⟨s.config, closeFrame (accumulate (takeEvent s.blk) s.blk.evtBit),
        some (accResult (accumulate (takeEvent s.blk) s.blk.evtBit)), s.schedule⟩) := by
  obtain ⟨hv, -⟩ | ⟨hv, hf, -⟩ | ⟨hv, hf, -⟩ | ⟨-, -, -, hfault⟩ | ⟨hv, hf, hp, -⟩ := execDecode_cases s
  · rw [exec_decode_nothing_pending hv] at h
    cases h
    exact .inl ⟨hv, rfl⟩
  · rw [exec_decode_idle hv hf] at h
    cases h
    exact .inr (.inl ⟨hv, hf, rfl⟩)
  · rw [exec_decode_seek hv hf] at h
    cases h
    exact .inr (.inr (.inl ⟨hv, hf, rfl⟩))
  · rw [exec_decode, hfault] at h
    cases h
  · rw [exec_decode_acc hv hf hp] at h
    cases h
    exact .inr (.inr (.inr ⟨hv, hf, hp, rfl⟩))

/-- A DECODE that answers leaves the event bit, the sampler, the configuration and the schedule alone. -/
theorem exec_decode_frame (h : exec .decode s = .next t) :
    t.blk.evtBit = s.blk.evtBit ∧ t.blk.sstate = s.blk.sstate ∧ t.blk.cnt = s.blk.cnt ∧
    t.blk.wasLow = s.blk.wasLow ∧ t.config = s.config ∧ t.schedule = s.schedule := by
  obtain ⟨-, rfl⟩ | ⟨-, -, rfl⟩ | ⟨-, -, rfl⟩ | ⟨-, -, -, rfl⟩ := exec_decode_next_cases h
  · simp
  · simp [seekStep_frame]
  · simp [seekStep_frame]
  · simp [closeFrame_frame, accumulate_frame]

end

/-- Settles O23. -/
theorem decodeTakesThePendingEvent : Obligations.DecodeTakesThePendingEvent := by
  refine ⟨fun s => exec_decode_nothing_pending, fun s t _ h => ?taken, fun s _ hpos => ?answers⟩
  case taken =>
    obtain ⟨hbit, -⟩ := exec_decode_frame h
    exact ⟨exec_decode_evtValid h, hbit⟩
  case answers =>
    obtain hnext | ⟨hacc, h5, -⟩ := exec_decode_answers_or_faults s
    · exact hnext
    · have hlt := hpos hacc
      simp [h5] at hlt

/-! ### DECODE in IDLE and in SEEK (rules R132, R133) -/

/-- Settles O24: the SEEK step that follows the IDLE step matches exactly on a 0, the sentinel ending in two 1 bits. -/
theorem decodeInIdleStartsASearch : Obligations.DecodeInIdleStartsASearch := by
  intro s hv hf
  have ht := exec_decode_idle hv hf
  refine ⟨_, ht, rfl, ?tmo, ?one, ?zero, exec_decode_evtValid ht, exec_decode_frame ht⟩
  case tmo => simp [seekStep_frame]
  case one =>
    intro hbit
    have hstep := seekStep_no_match (b := idleStep (takeEvent s.blk)) (bit := true) (by simp [syncMatch_shiftIn])
    have hsentinel : shiftIn 0xFF#8 true = 0xFF#8 := by decide
    simp only [hbit, hstep]
    exact ⟨rfl, hsentinel, fun _ => rfl, rfl, rfl, rfl⟩
  case zero =>
    intro hbit
    have hstep := seekStep_match (b := idleStep (takeEvent s.blk)) (bit := false) (by simp [syncMatch_shiftIn])
    have hsentinel : shiftIn 0xFF#8 false = 0xFE#8 := by decide
    simp only [hbit, hstep]
    exact ⟨rfl, hsentinel, read_clearPacket s.blk.mem, rfl, rfl, rfl⟩

/-- Settles O25: the two clauses are the two cases of the SEEK step, told apart by the bits of the new history. -/
theorem decodeInSeekMatchesTheSyncPattern : Obligations.DecodeInSeekMatchesTheSyncPattern := by
  intro s hv hf
  have ht := exec_decode_seek hv hf
  obtain ⟨hhist, htmo, -⟩ := seekStep_frame (takeEvent s.blk) s.blk.evtBit
  rw [takeEvent_hist] at hhist
  refine ⟨_, ht, rfl, htmo, ?shift, ?found, ?not_found, exec_decode_evtValid ht, exec_decode_frame ht⟩
  case shift =>
    simp only [hhist]
    exact ⟨shiftIn_getLsbD_zero _ _, fun k hk => shiftIn_getLsbD_succ _ _ hk⟩
  case found =>
    intro hsync
    rw [← syncMatch_iff, hhist] at hsync
    simp only [seekStep_match (b := takeEvent s.blk) hsync]
    exact ⟨rfl, read_clearPacket s.blk.mem, rfl, rfl, rfl⟩
  case not_found =>
    intro hsync
    rw [← syncMatch_iff, hhist] at hsync
    simp only [seekStep_no_match (b := takeEvent s.blk) hsync]
    exact ⟨hf, fun _ => rfl, rfl, rfl, rfl⟩

/-! ### DECODE in ACC (rules R134, R135) -/

/-- Settles O26: the end of the ACC step keeps what the ACC step wrote, completed or not. -/
theorem decodeInAccShiftsTheBitIn : Obligations.DecodeInAccShiftsTheBitIn := by
  intro s hv hf hp
  have ht := exec_decode_acc hv hf hp
  refine ⟨_, ht, ?shift, ?others, ?byte_end, ?in_byte, ?one_bit, ?hist, exec_decode_evtValid ht, exec_decode_frame ht⟩
  case shift =>
    simp only [Block.pkt, closeFrame_frame, accumulate_mem, takeEvent_mem, takeEvent_bytePos, Memory.read_write_same]
    exact ⟨shiftIn_getLsbD_zero _ _, fun k hk => shiftIn_getLsbD_succ _ _ hk⟩
  case others =>
    intro a ha
    simp only [closeFrame_frame, accumulate_mem, takeEvent_mem, takeEvent_bytePos, Memory.read_write_other _ _ ha]
  case byte_end =>
    simp only [closeFrame_frame]
    exact accumulate_byte_end (b := takeEvent s.blk) hp
  case in_byte =>
    simp only [closeFrame_frame]
    exact accumulate_in_byte (b := takeEvent s.blk)
  case one_bit =>
    simp only [closeFrame_frame]
    exact accumulate_one_bit (b := takeEvent s.blk) hp
  case hist => simp only [closeFrame_frame, accumulate_frame, takeEvent_hist]

/-- After a completion each command that answers, a match and RESET apart, keeps the buffer and both positions: DECODE
in ACC would have no byte to write, and outside ACC the SEEK step writes them at a match only. -/
theorem exec_keeps_completed_packet {i : Instr} {s t : State} (h5 : s.blk.bytePos.val = 5) (h : exec i s = .next t)
    (hreset : i ≠ .reset) (hmatch : ¬ (i = .decode ∧ s.blk.evtValid = true ∧ t.blk.fstate = .acc)) :
    t.blk.bytePos = s.blk.bytePos ∧ t.blk.bitPos = s.blk.bitPos ∧ t.blk.mem = s.blk.mem := by
  cases i with
  | tick level =>
    rw [exec_tick] at h
    cases h
    simp [timeoutStep_frame, samplerStep_frame]
  | decode =>
    obtain ⟨-, rfl⟩ | ⟨hv, -, rfl⟩ | ⟨hv, -, rfl⟩ | ⟨-, -, hp, -⟩ := exec_decode_next_cases h
    · exact ⟨rfl, rfl, rfl⟩
    · exact seekStep_keeps_packet fun hacc => hmatch ⟨rfl, hv, hacc⟩
    · exact seekStep_keeps_packet fun hacc => hmatch ⟨rfl, hv, hacc⟩
    · omega
  | ack =>
    cases h
    exact ⟨rfl, rfl, rfl⟩
  | poll | rdbyte | crc | valid | sid | hum | temp | rdstat =>
    obtain ⟨v, rfl⟩ := exec_reader_answer rfl h
    exact ⟨rfl, rfl, rfl⟩
  | reset => exact absurd rfl hreset

/-- Settles O27. -/
theorem decodeCompletesAfterTheFifthByte : Obligations.DecodeCompletesAfterTheFifthByte := by
  constructor
  · intro s hv hf hp
    have hfive := accumulate_bytePos_eq_five_iff (b := takeEvent s.blk) (bit := s.blk.evtBit) hp
    refine ⟨_, exec_decode_acc hv hf hp, ?last, ?complete, ?earlier⟩ <;> simp only [closeFrame_frame]
    case last => exact hfive
    case complete =>
      intro h5
      obtain ⟨hclose, hresult⟩ := closeFrame_complete h5
      obtain ⟨-, h7⟩ := hfive.mp h5
      obtain ⟨hbit, -⟩ := accumulate_byte_end (b := takeEvent s.blk) (bit := s.blk.evtBit) hp h7
      simp [hclose, hresult, hbit]
    case earlier =>
      intro h5
      obtain ⟨hclose, hresult⟩ := closeFrame_incomplete h5
      simp [hclose, hresult, accumulate_frame, hf]
  · intro i s t h5 h hreset hmatch
    obtain ⟨hbyte, hbit, hmem⟩ := exec_keeps_completed_packet h5 h hreset hmatch
    exact ⟨hbyte, hbit, fun a => by rw [hmem]⟩

/-! ### The result of DECODE (rule R136) -/

/-- Settles O28. -/
theorem decodeResultTellsACompletion : Obligations.DecodeResultTellsACompletion := by
  intro s t h
  obtain ⟨hv, rfl⟩ | ⟨-, hf, rfl⟩ | ⟨-, hf, rfl⟩ | ⟨hv, hf, -, rfl⟩ := exec_decode_next_cases h
  · simp [hv]
  · simp [hf]
  · simp [hf]
  · simp only [hv, hf, closeFrame_frame, true_and]
    exact ⟨fun h5 => congrArg some (closeFrame_complete h5).2, fun h5 => congrArg some (closeFrame_incomplete h5).2⟩

end Sys2Proof.Machine
end

section
/-! PROOFS. The statements of 42_validate_extract.md on the five commands: what CRC, VALID, SID, HUM and TEMP answer
(rules R161 to R165, R224), and that the answer depends on the packet alone (rule R166). -/

namespace Sys2Proof.Machine

/-! ### What each command answers -/

section
variable (s : State)

theorem exec_crc : exec .crc s = .next { s with result := some (zext16 (packetCrc s.blk)) } := rfl
theorem exec_valid : exec .valid s = .next { s with result := some (flagResult (packetValid s.blk)) } := rfl
theorem exec_sid : exec .sid s = .next { s with result := some (zext16 (idField s.blk)) } := rfl
theorem exec_hum : exec .hum s = .next { s with result := some (zext16 (s.blk.pkt 3)) } := rfl
theorem exec_temp : exec .temp s = .next { s with result := some (BitVec.ofInt 16 (temperature s.blk)) } := rfl

end

/-! ### The packet alone decides (rule R166) -/

section
variable {b b' : Block} (h : ∀ a < 5, b'.pkt a = b.pkt a)
include h

theorem packetCrc_congr : packetCrc b' = packetCrc b := by
  simp only [packetCrc, h 0 (by decide), h 1 (by decide), h 2 (by decide), h 3 (by decide)]

theorem packetValid_congr : packetValid b' = packetValid b := by
  simp only [packetValid, packetCrc_congr h, h 4 (by decide)]

theorem idField_congr : idField b' = idField b := by
  simp only [idField, h 0 (by decide), h 1 (by decide)]

theorem temperature_congr : temperature b' = temperature b := by
  have hsign : signField b' = signField b := by rw [signField, h 1 (by decide), signField]
  have hmagnitude : magnitudeField b' = magnitudeField b := by
    rw [magnitudeField, h 1 (by decide), h 2 (by decide), magnitudeField]
  rw [temperature, hsign, hmagnitude, temperature]

end

/-- Settles O40: each command's answer is a function of the record that reads it through the five bytes only. -/
theorem extractorsDependOnThePacketAlone : Obligations.ExtractorsDependOnThePacketAlone := by
  intro i s s' hi h
  cases i with
  | crc => exact ⟨_, exec_crc s, by rw [exec_crc, packetCrc_congr h]⟩
  | valid => exact ⟨_, exec_valid s, by rw [exec_valid, packetValid_congr h]⟩
  | sid => exact ⟨_, exec_sid s, by rw [exec_sid, idField_congr h]⟩
  | hum => exact ⟨_, exec_hum s, by rw [exec_hum, h 3 (by decide)]⟩
  | temp => exact ⟨_, exec_temp s, by rw [exec_temp, temperature_congr h]⟩
  | tick | decode | poll | rdbyte | ack | rdstat | reset => cases hi

/-! ### CRC and VALID (rules R161, R162, R224) -/

/-- Rule R161's corner case. -/
theorem crc8_zero : crc8 0 0 0 0 = 0x00#8 := by
  have hbyte : crcByte 0#8 0 = 0#8 := rfl
  rw [crc8, hbyte, hbyte, hbyte, hbyte]

/-- Rule R161's example, through the value of the register after each byte. -/
theorem crc8_example : crc8 0x01#8 0x23#8 0x45#8 0x32#8 = 0x71#8 := by
  have hfirst : crcByte 0x00#8 0x01#8 = 0x31#8 := rfl
  have hsecond : crcByte 0x31#8 0x23#8 = 0x21#8 := rfl
  have hthird : crcByte 0x21#8 0x45#8 = 0x7F#8 := rfl
  have hfourth : crcByte 0x7F#8 0x32#8 = 0x71#8 := rfl
  rw [crc8, hfirst, hsecond, hthird, hfourth]

/-- Settles O32. -/
theorem crcAnswersTheChecksumOfTheHeader : Obligations.CrcAnswersTheChecksumOfTheHeader := by
  refine ⟨rfl, ?_, crc8_zero, crc8_example⟩
  rintro s _ rfl
  exact exec_crc s

theorem packetValid_iff (b : Block) : packetValid b = true ↔ packetCrc b = b.pkt 4 := beq_iff_eq

theorem exec_valid_of_match {s : State} (h : packetCrc s.blk = s.blk.pkt 4) :
    exec .valid s = .next { s with result := some 1#16 } := by
  have hvalid : packetValid s.blk = true := (packetValid_iff _).mpr h
  rw [exec_valid, hvalid]
  rfl

theorem exec_valid_of_mismatch {s : State} (h : packetCrc s.blk ≠ s.blk.pkt 4) :
    exec .valid s = .next { s with result := some 0#16 } := by
  have hvalid : packetValid s.blk = false := Bool.eq_false_iff.mpr (mt (packetValid_iff _).mp h)
  rw [exec_valid, hvalid]
  rfl

/-- Settles O36: the reset buffer is the packet of zero bytes, whose checksum is its byte 4. -/
theorem validComparesChecksumAndTrailer : Obligations.ValidComparesChecksumAndTrailer :=
  ⟨rfl, fun _ => ⟨exec_valid_of_match, exec_valid_of_mismatch⟩, exec_valid_of_match (s := State.reset) crc8_zero,
    crc8_example⟩

/-! ### SID and HUM (rules R163, R164) -/

/-- Zero extension to the result bus keeps the value (rule R14). -/
theorem zext16_toNat {n : Nat} (v : BitVec n) (hn : n ≤ 16) : (zext16 v).toNat = v.toNat :=
  BitVec.toNat_setWidth_of_le hn

/-- Concatenation by arithmetic: the two parts share no bit. -/
theorem append_toNat {m n : Nat} (x : BitVec m) (y : BitVec n) : (x ++ y).toNat = x.toNat * 2 ^ n + y.toNat := by
  rw [BitVec.toNat_append, ← Nat.shiftLeft_add_eq_or_of_lt y.isLt, Nat.shiftLeft_eq]

theorem idField_toNat (b : Block) : (idField b).toNat = (b.pkt 0).toNat * 16 + (b.pkt 1).toNat / 16 := by
  have hnibble : ((b.pkt 1).extractLsb' 4 4).toNat = (b.pkt 1).toNat / 16 := by
    rw [BitVec.extractLsb'_toNat, Nat.shiftRight_eq_div_pow]
    omega
  rw [idField, append_toNat, hnibble]
  rfl

theorem byte_toNat_lt_of_bit_seven_clear {v : Byte} (h : v.getLsbD 7 = false) : v.toNat < 128 := by
  have hmsb : 2 * v.toNat < 2 ^ 8 := BitVec.msb_eq_false_iff_two_mul_lt.mp (v.msb_eq_getLsbD_last.trans h)
  omega

/-- Settles O37. -/
theorem sidAnswersTheTwelveBitIdentifier : Obligations.SidAnswersTheTwelveBitIdentifier := by
  refine ⟨rfl, fun s => ⟨_, exec_sid s, ?_⟩⟩
  have hvalue : (zext16 (idField s.blk)).toNat = (s.blk.pkt 0).toNat * 16 + (s.blk.pkt 1).toNat / 16 :=
    (zext16_toNat _ (by decide)).trans (idField_toNat s.blk)
  refine ⟨hvalue, by omega, fun hbit => ?_, fun h0 h1 => BitVec.eq_of_toNat_eq ?_⟩
  · have := byte_toNat_lt_of_bit_seven_clear hbit
    omega
  · rw [hvalue, h0, h1]
    rfl

/-- Settles O38. -/
theorem humAnswersByteThree : Obligations.HumAnswersByteThree := by
  refine ⟨rfl, fun s => ⟨_, exec_hum s, zext16_toNat _ (by decide), fun h3 => ?_⟩⟩
  rw [h3]
  rfl

/-! ### TEMP (rule R165) -/

section
variable {b : Block}

theorem magnitudeField_toNat (b : Block) :
    (magnitudeField b).toNat = (b.pkt 1).toNat % 8 * 256 + (b.pkt 2).toNat := by
  rw [magnitudeField, append_toNat, BitVec.extractLsb'_toNat, Nat.shiftRight_zero]
  rfl

/-- Rule R169: a set sign negates the magnitude. -/
theorem temperature_of_sign_set (h : (b.pkt 1).getLsbD 3 = true) :
    temperature b = -(((b.pkt 1).toNat % 8 * 256 + (b.pkt 2).toNat : Nat) : Int) := by
  rw [← magnitudeField_toNat]
  exact (if_pos h).trans (zero_sub _)

/-- Rule R169: a clear sign leaves the magnitude as it is. -/
theorem temperature_of_sign_clear (h : (b.pkt 1).getLsbD 3 = false) :
    temperature b = (((b.pkt 1).toNat % 8 * 256 + (b.pkt 2).toNat : Nat) : Int) := by
  rw [← magnitudeField_toNat]
  exact if_neg (Bool.eq_false_iff.mp h)

/-- The magnitude has 11 bits, whatever the sign. -/
theorem temperature_bounds (b : Block) : -2047 ≤ temperature b ∧ temperature b ≤ 2047 := by
  cases hsign : (b.pkt 1).getLsbD 3 with
  | true =>
    rw [temperature_of_sign_set hsign]
    omega
  | false =>
    rw [temperature_of_sign_clear hsign]
    omega

/-- There is no negative zero. -/
theorem temperature_of_zero_magnitude (h : (b.pkt 1).toNat % 8 * 256 + (b.pkt 2).toNat = 0) : temperature b = 0 := by
  cases hsign : (b.pkt 1).getLsbD 3 with
  | true => rw [temperature_of_sign_set hsign, h, Nat.cast_zero, neg_zero]
  | false => rw [temperature_of_sign_clear hsign, h, Nat.cast_zero]

/-- Truncation to the 16-bit result bus loses nothing of the signed count. -/
theorem toInt_ofInt_temperature (b : Block) : (BitVec.ofInt 16 (temperature b)).toInt = temperature b := by
  obtain ⟨hlo, hhi⟩ := temperature_bounds b
  exact BitVec.toInt_ofInt_eq_self (by decide) (by omega) (by omega)

end

/-- Settles O39. -/
theorem tempAnswersTheSignedMagnitude : Obligations.TempAnswersTheSignedMagnitude := by
  refine ⟨rfl, fun s => ⟨_, exec_temp s, ?_⟩⟩
  rw [toInt_ofInt_temperature]
  obtain ⟨hlo, hhi⟩ := temperature_bounds s.blk
  refine ⟨temperature_of_sign_set, temperature_of_sign_clear, hlo, hhi, fun h1 h2 => ?zero, fun h1 h2 => ?worked⟩
  case zero =>
    have hlow : (s.blk.pkt 2).toNat = 0 := congrArg BitVec.toNat h2
    rw [temperature_of_zero_magnitude (by omega)]
    rfl
  case worked =>
    have hclear : (s.blk.pkt 1).getLsbD 3 = false := by
      rw [h1]
      rfl
    rw [temperature_of_sign_clear hclear, h1, h2]
    rfl

end Sys2Proof.Machine
end

section
/-! PROOFS. The statements of 43_consumer.md on the answers of POLL, RDBYTE, ACK, RDSTAT and RESET (rules R190 to
R194). -/

namespace Sys2Proof.Machine

/-! ### The values on the result bus (rule R14) -/

theorem flagResult_eq (f : Bool) : flagResult f = if f then 1#16 else 0#16 := by cases f <;> rfl

/-- A number that fits its field keeps its value on the result bus. -/
theorem zext16_ofNat {w n : Nat} (hn : n < 2 ^ w) : zext16 (BitVec.ofNat w n) = BitVec.ofNat 16 n := by
  rw [zext16, ← BitVec.ofNat_toNat, BitVec.toNat_ofNat, Nat.mod_eq_of_lt hn]

theorem zext16_append_flags (high low : Bool) :
    zext16 (BitVec.ofBool high ++ BitVec.ofBool low) = BitVec.ofNat 16 (2 * high.toNat + low.toNat) := by
  cases high <;> cases low <;> rfl

theorem counterResult_of_lt {v : Nat} (k width : Nat) (hv : v < 2 ^ 16) : counterResult k width v = BitVec.ofNat 16 v :=
  if_pos hv

/-! ### The words of RDBYTE and RDSTAT (rules R191, R193) -/

theorem encode_rdbyte (i : BitVec 3) : encode (.rdbyte i) = 0x40#8 ||| i.setWidth 8 := by
  revert i
  decide

theorem encode_rdstat (k : BitVec 4) : encode (.rdstat k) = 0xE0#8 ||| k.setWidth 8 := by
  revert k
  decide

/-- The words after the last packet index and after the last selector are in the ranges of rule R90. -/
theorem decodeWord_error_of_reserved_operand {n : Nat} (hn : (0x45 ≤ n ∧ n ≤ 0x4F) ∨ (0xEA ≤ n ∧ n ≤ 0xEF)) :
    ∃ why, decodeWord (BitVec.ofNat 8 n) = .error why := by
  have hfits : n % 2 ^ 8 = n := Nat.mod_eq_of_lt (by omega)
  rw [← reservedByR90_iff_decodeWord_error]
  simp only [reservedByR90, BitVec.toNat_ofNat, hfits, Bool.or_eq_true, decide_eq_true_eq]
  omega

/-! ### What each command answers -/

section
variable (s : State)

theorem exec_poll : exec .poll s = .next { s with result := some (if s.blk.pktReady then 1#16 else 0#16) } := by
  rw [← flagResult_eq]
  rfl

theorem exec_ack : exec .ack s = .next { s with blk := clearReady s.blk, result := none } := rfl

theorem exec_reset : exec .reset s = .next { s with blk := Block.reset, result := none } := rfl

/-- RDSTAT puts the selected status value on the result bus and changes nothing else (rule R193). -/
theorem exec_rdstat_answer {k : BitVec 4} {v : Result} (hv : statusValue s.config s.blk k = some v) :
    exec (.rdstat k) s = .next { s with result := some v } :=
  exec_rdstat_of_statusValue s hv

end

/-! ### POLL and ACK (rules R190, R192) -/

section
variable {s t : State}

theorem exec_poll_of_pktReady (hready : s.blk.pktReady = true) :
    exec .poll s = .next { s with result := some 1#16 } := by
  rw [exec_poll, hready]
  rfl

theorem exec_poll_of_not_pktReady (hready : s.blk.pktReady = false) :
    exec .poll s = .next { s with result := some 0#16 } := by
  rw [exec_poll, hready]
  rfl

/-- Only the DECODE that completes a frame answers 1, and completion sets the flag (rules R135, R136). -/
theorem pktReady_of_decode_one (h : exec .decode s = .next t) (hone : t.result = some 1#16) :
    t.blk.pktReady = true := by
  obtain ⟨-, rfl⟩ | ⟨-, -, rfl⟩ | ⟨-, -, rfl⟩ | ⟨-, -, -, rfl⟩ := exec_decode_next_cases h
  · simp at hone
  · simp at hone
  · simp at hone
  · by_cases h5 : (accumulate (takeEvent s.blk) s.blk.evtBit).bytePos.val = 5
    · simp [closeFrame_complete h5]
    · simp [closeFrame_incomplete h5] at hone

/-- The flag is changed by DECODE, ACK and RESET alone (rules R30, R190). -/
theorem exec_keeps_pktReady {i : Instr} (h : exec i s = .next t) (hdecode : i ≠ .decode) (hack : i ≠ .ack)
    (hreset : i ≠ .reset) : t.blk.pktReady = s.blk.pktReady := by
  cases i with
  | tick level =>
    rw [exec_tick] at h
    cases h
    simp only [timeoutStep_frame, samplerStep_frame]
  | poll | rdbyte | crc | valid | sid | hum | temp | rdstat =>
    obtain ⟨v, rfl⟩ := exec_reader_answer rfl h
    rfl
  | decode => exact absurd rfl hdecode
  | ack => exact absurd rfl hack
  | reset => exact absurd rfl hreset

end

/-- Settles O42. -/
theorem pollAnswersTheReadyFlag : Obligations.PollAnswersTheReadyFlag :=
  ⟨rfl, exec_poll, fun _ _ h hone => exec_poll_of_pktReady (pktReady_of_decode_one h hone),
    fun _ _ _ => exec_keeps_pktReady⟩

/-- Settles O45. -/
theorem ackClearsTheReadyFlag : Obligations.AckClearsTheReadyFlag := by
  refine ⟨rfl, exec_ack, fun s t h => ?_⟩
  rw [exec_ack] at h
  cases h
  exact ⟨fun _ => rfl, exec_poll_of_not_pktReady (clearReady_pktReady s.blk)⟩

/-! ### RDBYTE (rule R191) -/

/-- Settles O43: the shape of a partial packet is a part of the invariant. -/
theorem rdbyteAnswersOneByteOfThePacket : Obligations.RdbyteAnswersOneByteOfThePacket := by
  refine ⟨encode_rdbyte, fun n hlo hhi => decodeWord_error_of_reserved_operand (.inl ⟨hlo, hhi⟩),
    fun i s => exec_rdbyte_of_le_four s, fun s hinv hacc => ?_⟩
  obtain ⟨-, -, hpartial, -⟩ := hinv
  obtain ⟨hcurrent, -, hlater⟩ := hpartial hacc
  exact ⟨hcurrent, fun j hj h5 => hlater ⟨j, h5⟩ hj⟩

/-! ### RDSTAT, one equation per row of the status table (rule R193) -/

section
variable (c : Config) (b : Block)

theorem statusValue_sstate : statusValue c b 0 = some (zext16 (samplerCode b.sstate)) := rfl

theorem statusValue_cnt (h : b.cnt < 2 ^ 16) : statusValue c b 1 = some (BitVec.ofNat 16 b.cnt) :=
  congrArg some (counterResult_of_lt 1 c.cntW h)

theorem statusValue_wasLow : statusValue c b 2 = some (if b.wasLow then 1#16 else 0#16) :=
  congrArg some (flagResult_eq b.wasLow)

theorem statusValue_event : statusValue c b 3 = some (BitVec.ofNat 16 (2 * b.evtValid.toNat + b.evtBit.toNat)) :=
  congrArg some (zext16_append_flags b.evtValid b.evtBit)

theorem statusValue_fstate : statusValue c b 4 = some (zext16 (frameCode b.fstate)) := rfl

theorem statusValue_hist : statusValue c b 5 = some (b.hist.setWidth 16) := rfl

theorem statusValue_bytePos : statusValue c b 6 = some (BitVec.ofNat 16 b.bytePos.val) :=
  congrArg some (zext16_ofNat (by omega))

theorem statusValue_bitPos : statusValue c b 7 = some (BitVec.ofNat 16 b.bitPos.val) :=
  congrArg some (zext16_ofNat b.bitPos.isLt)

theorem statusValue_tmo (h : b.tmo < 2 ^ 16) : statusValue c b 8 = some (BitVec.ofNat 16 b.tmo) :=
  congrArg some (counterResult_of_lt 8 c.tmoW h)

theorem statusValue_pktReady : statusValue c b 9 = some (if b.pktReady then 1#16 else 0#16) :=
  congrArg some (flagResult_eq b.pktReady)

end

section
variable {s : State}

theorem exec_rdstat_sstate {st : SamplerState} (h : s.blk.sstate = st) :
    exec (.rdstat 0) s = .next { s with result := some (zext16 (samplerCode st)) } :=
  h ▸ exec_rdstat_answer s (statusValue_sstate s.config s.blk)

theorem exec_rdstat_fstate {st : FrameState} (h : s.blk.fstate = st) :
    exec (.rdstat 4) s = .next { s with result := some (zext16 (frameCode st)) } :=
  h ▸ exec_rdstat_answer s (statusValue_fstate s.config s.blk)

theorem exec_rdstat_tmo (h : s.blk.tmo < 2 ^ 16) :
    exec (.rdstat 8) s = .next { s with result := some (BitVec.ofNat 16 s.blk.tmo) } :=
  exec_rdstat_answer s (statusValue_tmo s.config s.blk h)

end

/-- Settles O46. -/
theorem rdstatAnswersTheSelectedField : Obligations.RdstatAnswersTheSelectedField := by
  refine ⟨encode_rdstat, fun n hlo hhi => decodeWord_error_of_reserved_operand (.inr ⟨hlo, hhi⟩), fun s => ?_⟩
  exact
    ⟨exec_rdstat_sstate, exec_rdstat_sstate, exec_rdstat_sstate,
      fun hcnt => exec_rdstat_answer s (statusValue_cnt _ _ hcnt),
      exec_rdstat_answer s (statusValue_wasLow _ _),
      exec_rdstat_answer s (statusValue_event _ _),
      exec_rdstat_fstate, exec_rdstat_fstate, exec_rdstat_fstate,
      exec_rdstat_answer s (statusValue_hist _ _),
      exec_rdstat_answer s (statusValue_bytePos _ _),
      exec_rdstat_answer s (statusValue_bitPos _ _),
      exec_rdstat_tmo,
      exec_rdstat_answer s (statusValue_pktReady _ _)⟩

/-! ### RESET (rule R194) -/

/-- Settles O48: after RESET the timeout counter is 0, which fits the result bus at every width. -/
theorem resetCommandLoadsS0 : Obligations.ResetCommandLoadsS0 := by
  refine ⟨rfl, exec_reset, fun s => ⟨{ s with blk := Block.reset, result := some 0#16 }, ?run, rfl, rfl⟩⟩
  calc execAll [.reset, .rdstat 8] s
    _ = execAll [.rdstat 8] { s with blk := Block.reset, result := none } := execAll_cons_next _ (exec_reset s)
    _ = execAll [] { s with blk := Block.reset, result := some 0#16 } :=
      execAll_cons_next [] (exec_rdstat_tmo (Nat.two_pow_pos 16))

end Sys2Proof.Machine
end

section
/-! PROOFS. The statement of 60_exceptions.md: each error condition is handled inside the command that meets it (rules
R220 to R226). -/

namespace Sys2Proof.Machine

/-! ### The cause of each condition (rules R220 to R225) -/

section
variable {c : Config} {b : Block} {i : Instr} {w : Nat}

theorem widthMalformed_iff :
    widthMalformed c w = true ↔ ¬ (c.hiMin ≤ w ∧ w ≤ c.hiMax) ∧ ¬ (c.loMin ≤ w ∧ w ≤ c.loMax) := by
  simp only [widthMalformed, Bool.not_eq_true', Bool.or_eq_false_iff, decide_eq_false_iff_not]

theorem widthMalformed_eq_false_iff :
    widthMalformed c w = false ↔ (c.hiMin ≤ w ∧ w ≤ c.hiMax) ∨ (c.loMin ≤ w ∧ w ≤ c.loMax) := by
  simp only [widthMalformed, Bool.not_eq_false', Bool.or_eq_true, decide_eq_true_eq]

theorem meetsCondition_malformed_iff :
    meetsCondition c b i .malformed = true ↔
      i = .tick false ∧ b.sstate = .acq ∧ widthMalformed c (satInc c b.cnt) = true := by
  simp only [meetsCondition, Bool.and_eq_true, beq_iff_eq, and_assoc]

theorem meetsCondition_desync_iff :
    meetsCondition c b i .desync = true ↔
      i = .tick true ∧ b.sstate = .gap ∧ c.gapDesync ≤ satInc c b.cnt := by
  simp only [meetsCondition, Bool.and_eq_true, beq_iff_eq, decide_eq_true_eq, and_assoc]

theorem meetsCondition_noPreamble_iff :
    meetsCondition c b i .noPreamble = true ↔
      b.fstate = .seek ∧ ¬ (i = .decode ∧ b.evtValid = true ∧ b.evtBit = false) := by
  simp only [meetsCondition, Bool.and_eq_true, Bool.not_eq_true', beq_iff_eq, ← Bool.not_eq_true, and_assoc]

/-- Every TICK belongs to the tick domain, and no other command does (rule R86). -/
theorem domain_eq_tick_iff : i.domain = .tick ↔ ∃ level, i = .tick level := by
  cases i <;> simp [Instr.domain]

theorem meetsCondition_pktTimeout_iff :
    meetsCondition c b i .pktTimeout = true ↔ (∃ level, i = .tick level) ∧ b.tmo ≠ 0 ∧ c.tmoMax < b.tmo + 1 := by
  simp only [meetsCondition, Bool.and_eq_true, beq_iff_eq, decide_eq_true_eq, domain_eq_tick_iff, and_assoc]

theorem meetsCondition_checksum_iff :
    meetsCondition c b i .checksum = true ↔ i = .valid ∧ packetCrc b ≠ b.pkt 4 := by
  simp only [meetsCondition, Bool.and_eq_true, Bool.not_eq_true', beq_iff_eq, ← Bool.not_eq_true, packetValid_iff]

theorem meetsCondition_evtOverrun_iff :
    meetsCondition c b i .evtOverrun = true ↔
      i = .tick false ∧ b.sstate = .acq ∧ b.evtValid = true ∧ widthMalformed c (satInc c b.cnt) = false := by
  simp only [meetsCondition, Bool.and_eq_true, Bool.not_eq_true', beq_iff_eq, and_assoc]

/-! ### The sampler step at the end of a pulse or a gap (rules R220, R221, R225) -/

theorem samplerStep_malformed (hs : b.sstate = .acq) (hw : widthMalformed c (satInc c b.cnt) = true) :
    samplerStep c false b = { b with sstate := .wait, cnt := 0 } := by
  obtain ⟨h1, h0⟩ := widthMalformed_iff.mp hw
  rw [samplerStep_acq_low hs, classifyPulse_malformed (b := countSample c b) h1 h0]
  rfl

theorem samplerStep_desync (hs : b.sstate = .gap) (hd : c.gapDesync ≤ satInc c b.cnt) :
    samplerStep c true b = { b with sstate := .wait, cnt := 0 } := by
  rw [samplerStep_gap_high hs, endGap_desync (b := countSample c b) hd]
  rfl

/-- A pulse in either range replaces the event slot. The ranges are disjoint, so `HI_MAX` alone tells its bit. -/
theorem samplerStep_classified (hc : c.wf) (hs : b.sstate = .acq)
    (hw : widthMalformed c (satInc c b.cnt) = false) :
    samplerStep c false b =
      { b with sstate := .gap, cnt := 0, evtValid := true, evtBit := decide (satInc c b.cnt ≤ c.hiMax) } := by
  rw [samplerStep_acq_low hs]
  obtain h1 | h0 := widthMalformed_eq_false_iff.mp hw
  · rw [classifyPulse_one (b := countSample c b) h1, decide_eq_true h1.2]
    rfl
  · have h1 : ¬ (c.hiMin ≤ satInc c b.cnt ∧ satInc c b.cnt ≤ c.hiMax) :=
      fun h1 => hc.pulse_ranges_disjoint ⟨h1, h0⟩
    have hbit : ¬ satInc c b.cnt ≤ c.hiMax := by
      obtain ⟨⟨-, -, hsep, -⟩, -⟩ := hc
      omega
    rw [classifyPulse_zero (b := countSample c b) h1 h0, decide_eq_false hbit]
    rfl

/-- Only a firing timeout changes the frame state (rules R105, R107). -/
theorem timeoutStep_keeps_fstate (h : ¬ (b.tmo ≠ 0 ∧ c.tmoMax < b.tmo + 1)) :
    (timeoutStep c b).fstate = b.fstate := by
  obtain ⟨-, ht⟩ | ⟨hon, hgt, -⟩ | ⟨-, -, ht⟩ := timeoutStep_cases c b
  · rw [ht]
  · exact absurd ⟨hon, hgt⟩ h
  · rw [ht]

end

/-! ### The command that meets the condition -/

section
variable {i : Instr} {level : Bool} {s t : State}

theorem exec_tick_blk (h : exec (.tick level) s = .next t) :
    t.blk = timeoutStep s.config (samplerStep s.config level s.blk) := by
  rw [exec_tick] at h
  cases h
  rfl

theorem exec_tick_keeps_fstate (h : exec (.tick level) s = .next t)
    (hno : meetsCondition s.config s.blk (.tick level) .pktTimeout = false) : t.blk.fstate = s.blk.fstate := by
  obtain ⟨hfstate, -, -, -, -, -, htmo, -⟩ := samplerStep_frame s.config level s.blk
  have hquiet : ¬ (s.blk.tmo ≠ 0 ∧ s.config.tmoMax < s.blk.tmo + 1) := fun hfires =>
    Bool.eq_false_iff.mp hno (meetsCondition_pktTimeout_iff.mpr ⟨⟨level, rfl⟩, hfires⟩)
  rw [exec_tick_blk h, timeoutStep_keeps_fstate (by rwa [htmo]), hfstate]

/-- Rule R220. -/
theorem exec_malformed (h : exec i s = .next t) (hm : meetsCondition s.config s.blk i .malformed = true) :
    t.blk = timeoutStep s.config { s.blk with sstate := .wait, cnt := 0 } := by
  obtain ⟨rfl, hs, hw⟩ := meetsCondition_malformed_iff.mp hm
  rw [exec_tick_blk h, samplerStep_malformed hs hw]

/-- Rule R221. -/
theorem exec_desync (h : exec i s = .next t) (hm : meetsCondition s.config s.blk i .desync = true) :
    t.blk = timeoutStep s.config { s.blk with sstate := .wait, cnt := 0 } ∧
    (meetsCondition s.config s.blk i .pktTimeout = false → t.blk.fstate = s.blk.fstate) := by
  obtain ⟨rfl, hs, hd⟩ := meetsCondition_desync_iff.mp hm
  exact ⟨by rw [exec_tick_blk h, samplerStep_desync hs hd], exec_tick_keeps_fstate h⟩

/-- Rule R222: a match needs a 0 bit, and no command but DECODE, RESET and a TICK that fires the timeout leaves SEEK. -/
theorem exec_noPreamble (h : exec i s = .next t) (hm : meetsCondition s.config s.blk i .noPreamble = true)
    (hreset : i ≠ .reset) (hno : meetsCondition s.config s.blk i .pktTimeout = false) : t.blk.fstate = .seek := by
  obtain ⟨hseek, htake⟩ := meetsCondition_noPreamble_iff.mp hm
  cases i with
  | tick level => exact (exec_tick_keeps_fstate h hno).trans hseek
  | decode =>
    obtain ⟨-, rfl⟩ | ⟨-, hidle, -⟩ | ⟨hv, -, rfl⟩ | ⟨-, hacc, -⟩ := exec_decode_next_cases h
    · exact hseek
    · simp [hseek] at hidle
    · have hbit : s.blk.evtBit = true := Bool.eq_true_of_not_eq_false fun h0 => htake ⟨rfl, hv, h0⟩
      have hstep := seekStep_no_match (b := takeEvent s.blk) (bit := s.blk.evtBit) (by simp [syncMatch_shiftIn, hbit])
      simp [hstep, hseek]
    · simp [hseek] at hacc
  | ack =>
    cases h
    exact hseek
  | poll | rdbyte | crc | valid | sid | hum | temp | rdstat =>
    obtain ⟨v, rfl⟩ := exec_reader_answer rfl h
    exact hseek
  | reset => exact absurd rfl hreset

/-- A take in IDLE starts a new search with the timeout armed (rules R132, R133). -/
theorem exec_decode_idle_starts_search (hv : t.blk.evtValid = true) (hidle : t.blk.fstate = .idle) :
    ∃ u, exec .decode t = .next u ∧ u.blk.fstate ≠ .idle ∧ u.blk.tmo = 1 := by
  refine ⟨_, exec_decode_idle hv hidle, ?searching, ?armed⟩
  case searching =>
    obtain ⟨-, h⟩ | ⟨-, h⟩ := seekStep_cases (idleStep (takeEvent t.blk)) t.blk.evtBit <;> simp [h]
  case armed => simp [seekStep_frame]

/-- Rule R223: the sampler step of the same TICK has run, and the frame machine is back in IDLE. -/
theorem exec_pktTimeout (h : exec i s = .next t) (hm : meetsCondition s.config s.blk i .pktTimeout = true) :
    (∃ level, i = .tick level ∧ t.blk = { samplerStep s.config level s.blk with fstate := .idle, tmo := 0 }) ∧
    (t.blk.evtValid = true → ∃ u, exec .decode t = .next u ∧ u.blk.fstate ≠ .idle ∧ u.blk.tmo = 1) := by
  obtain ⟨⟨level, rfl⟩, hon, hgt⟩ := meetsCondition_pktTimeout_iff.mp hm
  obtain ⟨-, -, -, -, -, -, htmo, -⟩ := samplerStep_frame s.config level s.blk
  have hblk : t.blk = { samplerStep s.config level s.blk with fstate := .idle, tmo := 0 } := by
    rw [exec_tick_blk h, timeoutStep_fires (by rwa [htmo]) (by rwa [htmo])]
  exact ⟨⟨level, rfl, hblk⟩, fun hv => exec_decode_idle_starts_search hv (by rw [hblk])⟩

/-- Rule R224. -/
theorem exec_checksum (h : exec i s = .next t) (hm : meetsCondition s.config s.blk i .checksum = true) :
    t.blk = s.blk ∧ t.result = some 0#16 := by
  obtain ⟨rfl, hcrc⟩ := meetsCondition_checksum_iff.mp hm
  rw [exec_valid_of_mismatch hcrc] at h
  cases h
  exact ⟨rfl, rfl⟩

/-- Rule R225. -/
theorem exec_evtOverrun (hc : s.config.wf) (h : exec i s = .next t)
    (hm : meetsCondition s.config s.blk i .evtOverrun = true) :
    t.blk = timeoutStep s.config
      { s.blk with
        sstate := .gap, cnt := 0, evtValid := true
        evtBit := decide (satInc s.config s.blk.cnt ≤ s.config.hiMax) } := by
  obtain ⟨rfl, hs, -, hw⟩ := meetsCondition_evtOverrun_iff.mp hm
  rw [exec_tick_blk h, samplerStep_classified hc hs hw]

end

/-- Settles O56: the invariant gives the answer and the disjoint pulse ranges; each clause is its rule's lemma. -/
theorem errorConditionsAreHandledInTheirCommand : Obligations.ErrorConditionsAreHandledInTheirCommand := by
  intro i s hinv hi
  have hc : s.config.wf := hinv.1
  obtain ⟨t, ht⟩ := exec_answers_of_inv hinv hi
  exact ⟨t, ht, exec_malformed ht, exec_desync ht, exec_noPreamble ht, exec_pktTimeout ht, exec_checksum ht,
    exec_evtOverrun hc ht⟩

end Sys2Proof.Machine
end

section
/-! PROOFS. The statement of 70_reset_and_hazards.md: what power-on leaves (rule R250). -/

namespace Sys2Proof.Machine

/-- Building an instance of a well-formed configuration is powering it on (rules R8, R250). -/
theorem build_of_wf {c : Config} (h : c.wf) : build c = .next (State.powerOn c) := if_pos h

/-- The configuration has no part in the record at power-on (rules R250, R251). -/
theorem powerOn_blk_eq_reset_blk (c : Config) : (State.powerOn c).blk = State.reset.blk :=
  calc (State.powerOn c).blk
    _ = Block.reset := powerOn_blk c
    _ = State.reset.blk := (powerOn_blk Config.reference).symm

/-- Settles O2: the state built is `State.powerOn c`, and `State.reset` is another instance at power-on. -/
theorem powerOnLeavesS0ForEveryConfiguration : Obligations.PowerOnLeavesS0ForEveryConfiguration :=
  fun c hwf => ⟨State.powerOn c, build_of_wf hwf, powerOn_blk_eq_reset_blk c, powerOn_config c⟩

end Sys2Proof.Machine
end

section
/-! PROOFS. The statements of 10_state.md on every step: the invariant of rule R40 and its strengthening hold at
power-on and are kept by each command, the configuration is fixed (rule R35), and each domain writes its own fields
(rule R36). -/

namespace Sys2Proof.Machine

/-! ### The invariant in two parts: what the sampler writes, and what the frame machine writes -/

/-- The part of the invariant about the sampler's fields (rule R40 item 6, and rule R21). -/
structure SamplerInv (c : Config) (b : Block) : Prop where
  wait_cnt : b.sstate = .wait → b.cnt = 0
  wasLow_wait : b.sstate ≠ .wait → b.wasLow = false
  cnt_le : b.cnt ≤ c.cntMax

/-- The part of the invariant about the frame machine's fields (rule R40 items 1 to 5, rules R31 and R191). -/
structure FrameInv (c : Config) (b : Block) : Prop where
  idle_iff : b.fstate = .idle ↔ b.tmo = 0
  tmo_le : b.tmo ≤ c.tmoMax
  seek_hist : b.fstate = .seek → b.hist = 0xFF#8
  acc_bytePos : b.fstate = .acc → b.bytePos.val < 5
  acc_bitPos : b.fstate = .acc → b.bytePos.val = 0 → 1 ≤ b.bitPos.val
  ready : b.pktReady = true → b.fstate ≠ .acc ∧ b.bytePos.val = 5 ∧ b.bitPos.val = 0
  first_bit : (b.pkt 0).getLsbD 7 = false
  partialByte : partialByte b
  mem_wf : Memory.wf b.mem = true

theorem samplerCode_ne_three (st : SamplerState) : samplerCode st ≠ 3#2 := by cases st <;> decide

theorem frameCode_ne_three (st : FrameState) : frameCode st ≠ 3#2 := by cases st <;> decide

/-- The invariant of the model is the well-formed configuration and the two parts; `tmo` fits its field because
`TMO_MAX` does (rule R8). -/
theorem State.inv_iff (s : State) :
    s.Inv ↔ s.config.wf ∧ SamplerInv s.config s.blk ∧ FrameInv s.config s.blk := by
  constructor
  · rintro ⟨hwf, ⟨⟨hidle, htmo⟩, hseek, hacc, hready, hfirst, ⟨hwait, hlow⟩, -⟩, hpartial, ⟨hcnt, -⟩, hmem⟩
    have htmo_le : s.blk.tmo ≤ s.config.tmoMax := by
      by_cases hf : s.blk.fstate = .idle
      · simp [hidle.mp hf]
      · exact (htmo hf).2
    exact ⟨hwf, ⟨hwait, hlow, hcnt⟩, ⟨hidle, htmo_le, hseek, fun hf => by have := hacc hf; omega,
      fun hf => by have := hacc hf; omega, hready, hfirst, hpartial, hmem⟩⟩
  · rintro ⟨hwf, hs, hf⟩
    have htmo_pos : s.blk.fstate ≠ .idle → 1 ≤ s.blk.tmo := fun h =>
      Nat.pos_of_ne_zero fun h0 => h (hf.idle_iff.mpr h0)
    have htmo_lt := hwf.timeout_below_field_maximum hf.tmo_le
    refine ⟨hwf, ⟨⟨hf.idle_iff, fun h => ⟨htmo_pos h, hf.tmo_le⟩⟩, hf.seek_hist, fun h => ?acc, hf.ready, hf.first_bit,
      ⟨hs.wait_cnt, hs.wasLow_wait⟩, by omega, samplerCode_ne_three _, frameCode_ne_three _⟩, hf.partialByte,
      ⟨hs.cnt_le, by omega⟩, hf.mem_wf⟩
    case acc =>
      have hbyte := hf.acc_bytePos h
      have hbit := hf.acc_bitPos h
      omega

theorem State.Inv.config_wf {s : State} (h : s.Inv) : s.config.wf := h.1

theorem State.Inv.sampler {s : State} (h : s.Inv) : SamplerInv s.config s.blk := by
  obtain ⟨-, hsampler, -⟩ := s.inv_iff.mp h
  exact hsampler

theorem State.Inv.frame {s : State} (h : s.Inv) : FrameInv s.config s.blk := by
  obtain ⟨-, -, hframe⟩ := s.inv_iff.mp h
  exact hframe

/-- The sampler part reads only the sampler's fields. -/
theorem SamplerInv.congr {c : Config} {b b' : Block} (h : SamplerInv c b) (hsstate : b'.sstate = b.sstate)
    (hcnt : b'.cnt = b.cnt) (hlow : b'.wasLow = b.wasLow) : SamplerInv c b' :=
  ⟨by rw [hsstate, hcnt]; exact h.wait_cnt, by rw [hsstate, hlow]; exact h.wasLow_wait, by rw [hcnt]; exact h.cnt_le⟩

/-- The frame part reads only the frame machine's fields. -/
theorem FrameInv.congr {c : Config} {b b' : Block} (h : FrameInv c b) (hfstate : b'.fstate = b.fstate)
    (htmo : b'.tmo = b.tmo) (hhist : b'.hist = b.hist) (hbyte : b'.bytePos = b.bytePos) (hbit : b'.bitPos = b.bitPos)
    (hready : b'.pktReady = b.pktReady) (hmem : b'.mem = b.mem) : FrameInv c b' := by
  cases b
  cases b'
  dsimp only at hfstate htmo hhist hbyte hbit hready hmem
  subst hfstate htmo hhist hbyte hbit hready hmem
  exact ⟨h.idle_iff, h.tmo_le, h.seek_hist, h.acc_bytePos, h.acc_bitPos, h.ready, h.first_bit, h.partialByte, h.mem_wf⟩

/-! ### The sampler step and the timeout step keep the invariant (rules R100 to R105) -/

section
variable {c : Config} {b : Block}

theorem samplerStep_keeps_samplerInv (level : Bool) (h : SamplerInv c b) : SamplerInv c (samplerStep c level b) := by
  cases hs : b.sstate with
  | wait =>
    have hcnt := h.wait_cnt hs
    rw [samplerStep_wait level hs]
    obtain ⟨-, -, hw⟩ | ⟨-, -, hw⟩ | ⟨-, hw⟩ := waitStep_cases level b <;> rw [hw]
    · exact ⟨by simp, by simp, by simp⟩
    · exact h
    · exact ⟨by simp [hcnt], by simp [hs], by simp [hcnt]⟩
  | acq =>
    have hlow := h.wasLow_wait (by simp [hs])
    cases level with
    | true =>
      rw [samplerStep_acq_high hs]
      exact ⟨by simp [hs], by simp [hlow], satInc_le c b.cnt⟩
    | false =>
      rw [samplerStep_acq_low hs]
      obtain ⟨-, hp⟩ | ⟨-, -, hp⟩ | ⟨-, -, hp⟩ := classifyPulse_cases c (countSample c b) <;> rw [hp] <;>
        exact ⟨by simp, by simp [hlow], by simp⟩
  | gap =>
    have hlow := h.wasLow_wait (by simp [hs])
    cases level with
    | false =>
      rw [samplerStep_gap_low hs]
      exact ⟨by simp [hs], by simp [hlow], satInc_le c b.cnt⟩
    | true =>
      rw [samplerStep_gap_high hs]
      obtain ⟨-, hg⟩ | ⟨-, -, hg⟩ | ⟨-, -, hg⟩ := endGap_cases c (countSample c b) <;> rw [hg]
      · exact ⟨by simp, by simp, by simp⟩
      · exact ⟨by simp, by simp [hlow], by simp⟩
      · exact ⟨by simp [hs], by simp [hlow], satInc_le c b.cnt⟩

theorem samplerStep_keeps_frameInv (level : Bool) (h : FrameInv c b) : FrameInv c (samplerStep c level b) := by
  obtain ⟨hfstate, hhist, hbyte, hbit, hmem, hready, htmo, -⟩ := samplerStep_frame c level b
  exact h.congr hfstate htmo hhist hbyte hbit hready hmem

theorem timeoutStep_keeps_samplerInv (h : SamplerInv c b) : SamplerInv c (timeoutStep c b) := by
  obtain ⟨hsstate, hcnt, hlow, -⟩ := timeoutStep_frame c b
  exact h.congr hsstate hcnt hlow

theorem timeoutStep_keeps_frameInv (h : FrameInv c b) : FrameInv c (timeoutStep c b) := by
  obtain ⟨-, ht⟩ | ⟨-, -, ht⟩ | ⟨hon, hle, ht⟩ := timeoutStep_cases c b <;> rw [ht]
  · exact h
  · exact
      { idle_iff := by simp
        tmo_le := Nat.zero_le _
        seek_hist := nofun
        acc_bytePos := nofun
        acc_bitPos := nofun
        ready := fun hr => ⟨nofun, (h.ready hr).2⟩
        first_bit := h.first_bit
        partialByte := nofun
        mem_wf := h.mem_wf }
  · exact
      { idle_iff := by simp [h.idle_iff, hon]
        tmo_le := hle
        seek_hist := h.seek_hist
        acc_bytePos := h.acc_bytePos
        acc_bitPos := h.acc_bitPos
        ready := h.ready
        first_bit := h.first_bit
        partialByte := h.partialByte
        mem_wf := h.mem_wf }

end

/-! ### The frame machine keeps the invariant (rules R132 to R135) -/

section
variable {c : Config} {b : Block}

/-- The SEEK step from the sentinel history: a 1 leaves the history at the sentinel, a 0 is a match, after which the
empty frame holds no bit but the terminator's 0. -/
theorem seekStep_keeps_frameInv {bit : Bool} (hmem : Memory.wf b.mem = true) (hfirst : (b.pkt 0).getLsbD 7 = false)
    (hready : b.pktReady = true → b.bytePos.val = 5 ∧ b.bitPos.val = 0) (hseek : b.fstate = .seek)
    (hhist : b.hist = 0xFF#8) (hpos : b.tmo ≠ 0) (hle : b.tmo ≤ c.tmoMax) : FrameInv c (seekStep b bit) := by
  cases bit with
  | true =>
    rw [seekStep_no_match (by simp [hhist, syncMatch_shiftIn])]
    have hsentinel : shiftIn 0xFF#8 true = 0xFF#8 := by decide
    exact
      { idle_iff := by simp [hseek, hpos]
        tmo_le := hle
        seek_hist := by simp [hhist, hsentinel]
        acc_bytePos := by simp [hseek]
        acc_bitPos := by simp [hseek]
        ready := fun hr => ⟨by simp [hseek], hready hr⟩
        first_bit := hfirst
        partialByte := by simp [hseek]
        mem_wf := hmem }
  | false =>
    rw [seekStep_match (by simp [hhist, syncMatch_shiftIn])]
    have hclear : ∀ i < 5, (startFrame (pushHistory b false)).pkt i = 0#8 := fun i hi =>
      (read_clearPacket b.mem i).trans (if_pos hi)
    exact
      { idle_iff := by simp [hpos]
        tmo_le := hle
        seek_hist := by simp
        acc_bytePos := by simp
        acc_bitPos := by simp
        ready := by simp
        first_bit := by simp [hclear]
        partialByte := fun _ => by simp [hclear]
        mem_wf := wf_clearPacket hmem }

/-- A shift that loses no bit doubles the byte and adds the new bit. -/
theorem shiftIn_toNat {v : Byte} (bit : Bool) (hv : v.toNat < 128) :
    (shiftIn v bit).toNat = 2 * v.toNat + bit.toNat := by
  revert v bit
  decide

theorem getLsbD_seven_of_lt {v : Byte} (hv : v.toNat < 128) : v.getLsbD 7 = false := by
  rw [← BitVec.msb_eq_getLsbD_last v, BitVec.msb_eq_false_iff_two_mul_lt]
  omega

/-- What the ACC step leaves in each byte of the buffer. -/
theorem accumulate_pkt (b : Block) (bit : Bool) (i : Nat) :
    (accumulate b bit).pkt i = if i = b.bytePos.val then shiftIn (b.pkt i) bit else b.pkt i := by
  simp only [Block.pkt, accumulate_mem, Memory.read_write]
  split
  · next h => rw [h]
  · rfl

/-- A byte that holds only the bits already counted has room for one more. -/
theorem pkt_bytePos_lt (h : FrameInv c b) (hf : b.fstate = .acc) : (b.pkt b.bytePos.val).toNat < 128 ∧
    (b.bytePos.val = 0 → (b.pkt 0).toNat < 64) := by
  obtain ⟨hcurrent, hfirst, -⟩ := h.partialByte hf
  have hpow : 2 ^ b.bitPos.val ≤ 2 ^ 7 := Nat.pow_le_pow_right (by decide) (by omega)
  exact ⟨by omega, fun h0 => by have := hfirst h0; omega⟩

/-- Before the fifth byte completes, the ACC step leaves a partial byte: the current one with the bit shifted in, or the
next one, still empty. -/
theorem accumulate_partialByte (bit : Bool) (h : FrameInv c b) (hf : b.fstate = .acc)
    (h5 : (accumulate b bit).bytePos.val ≠ 5) : partialByte (accumulate b bit) := by
  intro _
  have hp := h.acc_bytePos hf
  obtain ⟨hcurrent, hfirst, hlater⟩ := h.partialByte hf
  have hother : ∀ j : Fin 5, b.bytePos.val < j.val → (accumulate b bit).pkt j.val = 0#8 := fun j hj => by
    rw [accumulate_pkt, if_neg (by omega), hlater j hj]
  by_cases h7 : b.bitPos.val = 7
  · obtain ⟨hbit, hbyte⟩ := accumulate_byte_end (bit := bit) hp h7
    have hnext := hother ⟨b.bytePos.val + 1, by omega⟩ (Nat.lt_succ_self _)
    rw [hbit, hbyte]
    exact ⟨by simp [hnext], fun h0 => by omega, fun j hj => hother j (by omega)⟩
  · obtain ⟨hbit, hbyte⟩ := accumulate_in_byte (bit := bit) h7
    obtain ⟨hroom, -⟩ := pkt_bytePos_lt h hf
    have hshift := shiftIn_toNat bit hroom
    have hbit_le := bit.toNat_le
    rw [hbit, hbyte]
    refine ⟨?current, fun h0 => ?first, hother⟩
    case current =>
      rw [accumulate_pkt, if_pos rfl, hshift, Nat.pow_succ]
      omega
    case first =>
      -- the bound of byte 0 is even: the terminator's 0 has been counted
      obtain ⟨k, hk⟩ := Nat.exists_eq_add_of_le' (h.acc_bitPos hf h0)
      have hlt := hfirst h0
      rw [h0] at hshift
      rw [accumulate_pkt, if_pos h0.symm, hshift]
      rw [hk] at hlt ⊢
      simp only [Nat.pow_succ] at hlt ⊢
      omega

/-- Byte 0 keeps its bit 7 clear: it receives seven bits after the terminator's 0. -/
theorem accumulate_first_bit (bit : Bool) (h : FrameInv c b) (hf : b.fstate = .acc) :
    ((accumulate b bit).pkt 0).getLsbD 7 = false := by
  rw [accumulate_pkt]
  split
  · next h0 =>
    obtain ⟨-, hroom⟩ := pkt_bytePos_lt h hf
    have hshift := shiftIn_toNat bit (v := b.pkt 0) (by have := hroom h0.symm; omega)
    have hlt := hroom h0.symm
    have hbit_le := bit.toNat_le
    exact getLsbD_seven_of_lt (by omega)
  · exact h.first_bit

/-- The ACC step, with the completion it may end in, keeps the invariant. -/
theorem closeFrame_accumulate_keeps_frameInv (bit : Bool) (h : FrameInv c b) (hf : b.fstate = .acc) :
    FrameInv c (closeFrame (accumulate b bit)) := by
  have hp := h.acc_bytePos hf
  have hone := accumulate_one_bit (bit := bit) hp
  have hfirst := accumulate_first_bit bit h hf
  obtain ⟨-, hfstate, htmo, hready, -⟩ := accumulate_frame b bit
  have hmem : Memory.wf (accumulate b bit).mem = true := by
    rw [accumulate_mem]
    exact Memory.wf_write _ hp h.mem_wf
  have hnot_ready : b.pktReady = false := Bool.eq_false_iff.mpr fun hr => (h.ready hr).1 hf
  by_cases h5 : (accumulate b bit).bytePos.val = 5
  · rw [(closeFrame_complete h5).1]
    exact
      { idle_iff := by simp
        tmo_le := Nat.zero_le _
        seek_hist := nofun
        acc_bytePos := nofun
        acc_bitPos := nofun
        ready := fun _ => ⟨nofun, h5, by simp only [completeFrame_bitPos]; omega⟩
        first_bit := hfirst
        partialByte := nofun
        mem_wf := hmem }
  · rw [(closeFrame_incomplete h5).1]
    exact
      { idle_iff := by rw [hfstate, htmo, h.idle_iff]
        tmo_le := by rw [htmo]; exact h.tmo_le
        seek_hist := by simp [hfstate, hf]
        acc_bytePos := fun _ => by omega
        acc_bitPos := fun _ h0 => by omega
        ready := by simp [hready, hnot_ready]
        first_bit := hfirst
        partialByte := accumulate_partialByte bit h hf h5
        mem_wf := hmem }

end

/-! ### Every command keeps the invariant (rule R40) -/

theorem Block.reset_samplerInv (c : Config) : SamplerInv c Block.reset :=
  ⟨fun _ => rfl, fun _ => rfl, Nat.zero_le _⟩

theorem Block.reset_frameInv (c : Config) : FrameInv c Block.reset where
  idle_iff := ⟨fun _ => rfl, fun _ => rfl⟩
  tmo_le := Nat.zero_le _
  seek_hist := nofun
  acc_bytePos := nofun
  acc_bitPos := nofun
  ready := nofun
  first_bit := rfl
  partialByte := nofun
  mem_wf := rfl

theorem powerOn_inv {c : Config} (h : c.wf) : (State.powerOn c).Inv :=
  (State.inv_iff _).mpr ⟨h, Block.reset_samplerInv c, Block.reset_frameInv c⟩

/-- Settles O49. -/
theorem powerOnStatesSatisfyTheInvariant : Obligations.PowerOnStatesSatisfyTheInvariant :=
  ⟨powerOn_inv Config.reference_wf, fun _ => powerOn_inv⟩

section
variable {s t : State}

/-- No command writes the configuration, nor the schedule that the step took it from (rules R35, R251). -/
theorem exec_keeps_config {i : Instr} (h : exec i s = .next t) : t.config = s.config ∧ t.schedule = s.schedule := by
  cases i with
  | decode =>
    obtain ⟨-, -, -, -, hkeep⟩ := exec_decode_frame h
    exact hkeep
  | poll | rdbyte | crc | valid | sid | hum | temp | rdstat =>
    obtain ⟨v, rfl⟩ := exec_reader_answer rfl h
    exact ⟨rfl, rfl⟩
  | tick | ack | reset =>
    cases h
    exact ⟨rfl, rfl⟩

theorem exec_decode_keeps_frameInv (hinv : FrameInv s.config s.blk) (hwf : s.config.wf)
    (h : exec .decode s = .next t) : FrameInv s.config t.blk := by
  obtain ⟨-, rfl⟩ | ⟨-, hidle, rfl⟩ | ⟨-, hseek, rfl⟩ | ⟨-, hacc, -, rfl⟩ := exec_decode_next_cases h
  · exact hinv
  · obtain ⟨-, -, hone, -⟩ := hwf
    exact seekStep_keeps_frameInv hinv.mem_wf hinv.first_bit (fun hr => (hinv.ready hr).2) rfl rfl Nat.one_ne_zero hone
  · have htmo : s.blk.tmo ≠ 0 := fun h0 => by simp [hinv.idle_iff.mpr h0] at hseek
    exact seekStep_keeps_frameInv hinv.mem_wf hinv.first_bit (fun hr => (hinv.ready hr).2) hseek (hinv.seek_hist hseek)
      htmo hinv.tmo_le
  · exact closeFrame_accumulate_keeps_frameInv _ (hinv.congr rfl rfl rfl rfl rfl rfl rfl) hacc

/-- Every command that answers keeps the invariant. -/
theorem exec_keeps_inv {i : Instr} (hinv : s.Inv) (h : exec i s = .next t) : t.Inv := by
  obtain ⟨hwf, hsampler, hframe⟩ := s.inv_iff.mp hinv
  obtain ⟨hconfig, -⟩ := exec_keeps_config h
  rw [State.inv_iff, hconfig]
  refine ⟨hwf, ?_⟩
  cases i with
  | tick level =>
    rw [exec_tick_blk h]
    exact ⟨timeoutStep_keeps_samplerInv (samplerStep_keeps_samplerInv level hsampler),
      timeoutStep_keeps_frameInv (samplerStep_keeps_frameInv level hframe)⟩
  | decode =>
    obtain ⟨-, hsstate, hcnt, hlow, -⟩ := exec_decode_frame h
    exact ⟨hsampler.congr hsstate hcnt hlow, exec_decode_keeps_frameInv hframe hwf h⟩
  | poll | rdbyte | crc | valid | sid | hum | temp | rdstat =>
    obtain ⟨v, rfl⟩ := exec_reader_answer rfl h
    exact ⟨hsampler, hframe⟩
  | ack =>
    cases h
    exact ⟨hsampler.congr rfl rfl rfl, { hframe with ready := nofun }⟩
  | reset =>
    cases h
    exact ⟨Block.reset_samplerInv _, Block.reset_frameInv _⟩

/-- Everything a step that answers can do: wait for a command, or take the next one and run it. -/
theorem step_next_cases (h : step s = .next t) :
    (s.schedule = [] ∧ t = s) ∨
    ∃ w rest i, s.schedule = w :: rest ∧ decodeWord w = .ok i ∧ exec i { s with schedule := rest } = .next t := by
  obtain ⟨-, hstep⟩ | ⟨-, hs, hstep⟩ | ⟨-, w, rest, why, -, -, hstep⟩ | ⟨-, w, rest, i, hs, hd, hstep⟩ :=
    step_cases s <;> rw [hstep] at h
  · cases h
  · cases h
    exact .inl ⟨hs, rfl⟩
  · cases h
  · exact .inr ⟨w, rest, i, hs, hd, h⟩

theorem step_keeps_inv (hinv : s.Inv) (h : step s = .next t) : t.Inv := by
  obtain ⟨-, rfl⟩ | ⟨w, rest, i, -, -, hexec⟩ := step_next_cases h
  · exact hinv
  · -- the invariant does not read the schedule
    have hinv' : State.Inv { s with schedule := rest } := hinv
    exact exec_keeps_inv hinv' hexec

theorem step_keeps_config (h : step s = .next t) : t.config = s.config := by
  obtain ⟨-, rfl⟩ | ⟨w, rest, i, -, -, hexec⟩ := step_next_cases h
  · rfl
  · exact (exec_keeps_config hexec).1

end

/-- Settles O50: the sampler part is kept by the sampler step, the frame part by the timeout step and the frame machine,
and neither writes the other's fields. -/
theorem everyStepKeepsTheInvariant : Obligations.EveryStepKeepsTheInvariant := fun _ _ => step_keeps_inv

/-- Settles O53. -/
theorem noStepChangesTheConfiguration : Obligations.NoStepChangesTheConfiguration := fun _ _ => step_keeps_config

/-! ### Every reachable state (rule R40) -/

/-- What every step keeps holds after any number of steps that answers. -/
theorem core_run_keeps {P : State → Prop} (hstep : ∀ s t, P s → step s = .next t → P t) (k : Nat) {s t : State}
    (hs : P s) (h : Host.Core.run core k s = .next t) : P t := by
  induction k generalizing s with
  | zero =>
    cases h
    exact hs
  | succ k ih =>
    rw [core_run_succ] at h
    cases hnext : step s with
    | next u =>
      rw [hnext] at h
      exact ih (hstep s u hs hnext) h
    | fault f =>
      rw [hnext] at h
      cases h
    | refused r =>
      rw [hnext] at h
      cases h

/-- Settles O51: the invariant holds at power-on under any schedule, and rule R40 is a part of it. -/
theorem reachableStatesSatisfyTheSevenInvariants : Obligations.ReachableStatesSatisfyTheSevenInvariants := by
  intro c schedule k t hwf hrun
  have hstart : State.Inv { State.powerOn c with schedule := schedule } := powerOn_inv hwf
  have hkeep : ∀ u v : State, u.config = c ∧ u.Inv → step u = .next v → v.config = c ∧ v.Inv := fun _ _ hu hstep =>
    ⟨(step_keeps_config hstep).trans hu.1, step_keeps_inv hu.2 hstep⟩
  obtain ⟨hconfig, hinv⟩ := core_run_keeps hkeep k ⟨rfl, hstart⟩ hrun
  obtain ⟨-, hr40, -⟩ := hinv
  exact ⟨hconfig, hconfig ▸ hr40⟩

/-! ### The fields of each domain (rules R36, R51) -/

section
variable {i : Instr} {s t : State}

/-- Every way a command other than RESET can answer. -/
theorem exec_next_cases (hreset : i ≠ .reset) (h : exec i s = .next t) :
    (∃ level, i = .tick level ∧ t.blk = timeoutStep s.config (samplerStep s.config level s.blk)) ∨
    i = .decode ∨
    (i = .ack ∧ t.blk = clearReady s.blk) ∨
    (isReader i = true ∧ t.blk = s.blk) := by
  cases i with
  | tick level => exact .inl ⟨level, rfl, exec_tick_blk h⟩
  | decode => exact .inr (.inl rfl)
  | ack =>
    cases h
    exact .inr (.inr (.inl ⟨rfl, rfl⟩))
  | poll | rdbyte | crc | valid | sid | hum | temp | rdstat =>
    obtain ⟨v, rfl⟩ := exec_reader_answer rfl h
    exact .inr (.inr (.inr ⟨rfl, rfl⟩))
  | reset => exact absurd rfl hreset

/-- TICK leaves the history, both positions, the buffer and `pkt_ready` alone, and clears no event (rule R107). -/
theorem tickSteps_frame (c : Config) (level : Bool) (b : Block) :
    (timeoutStep c (samplerStep c level b)).hist = b.hist ∧
    (timeoutStep c (samplerStep c level b)).bytePos = b.bytePos ∧
    (timeoutStep c (samplerStep c level b)).bitPos = b.bitPos ∧
    (timeoutStep c (samplerStep c level b)).mem = b.mem ∧
    (timeoutStep c (samplerStep c level b)).pktReady = b.pktReady ∧
    (b.evtValid = true → (timeoutStep c (samplerStep c level b)).evtValid = true) := by
  obtain ⟨-, -, -, -, -, -, -, hevent⟩ := samplerStep_frame c level b
  simp only [timeoutStep_frame, samplerStep_frame, true_and]
  exact hevent

theorem exec_cooperative_frame (hreset : i ≠ .reset) (h : exec i s = .next t) (hdomain : i.domain = .cooperative) :
    t.blk.sstate = s.blk.sstate ∧ t.blk.cnt = s.blk.cnt ∧ t.blk.wasLow = s.blk.wasLow ∧
    t.blk.evtBit = s.blk.evtBit ∧ (t.blk.evtValid = true → s.blk.evtValid = true) := by
  obtain ⟨level, rfl, -⟩ | rfl | ⟨-, hblk⟩ | ⟨-, hblk⟩ := exec_next_cases hreset h
  · cases hdomain
  · obtain ⟨hbit, hsstate, hcnt, hlow, -⟩ := exec_decode_frame h
    have hgone := exec_decode_evtValid h
    exact ⟨hsstate, hcnt, hlow, hbit, fun hv => by simp [hgone] at hv⟩
  · simp [hblk]
  · simp [hblk]

theorem exec_tick_frame (hreset : i ≠ .reset) (h : exec i s = .next t) (hdomain : i.domain = .tick) :
    t.blk.hist = s.blk.hist ∧ t.blk.bytePos = s.blk.bytePos ∧ t.blk.bitPos = s.blk.bitPos ∧
    t.blk.pktReady = s.blk.pktReady ∧ (s.blk.evtValid = true → t.blk.evtValid = true) := by
  obtain ⟨level, rfl⟩ := domain_eq_tick_iff.mp hdomain
  obtain ⟨hhist, hbyte, hbit, -, hready, hevent⟩ := tickSteps_frame s.config level s.blk
  rw [exec_tick_blk h]
  exact ⟨hhist, hbyte, hbit, hready, hevent⟩

/-- Only DECODE and RESET write the buffer (rule R51). -/
theorem exec_keeps_mem (hreset : i ≠ .reset) (hdecode : i ≠ .decode) (h : exec i s = .next t) :
    t.blk.mem = s.blk.mem := by
  obtain ⟨level, rfl, hblk⟩ | rfl | ⟨-, hblk⟩ | ⟨-, hblk⟩ := exec_next_cases hreset h
  · obtain ⟨-, -, -, hmem, -⟩ := tickSteps_frame s.config level s.blk
    rw [hblk, hmem]
  · exact absurd rfl hdecode
  · rw [hblk, clearReady_mem]
  · rw [hblk]

/-- A cooperative command other than DECODE and RESET writes at most `pkt_ready`. -/
theorem exec_cooperative_blk (hreset : i ≠ .reset) (hdecode : i ≠ .decode) (hdomain : i.domain = .cooperative)
    (h : exec i s = .next t) : t.blk = clearReady s.blk ∨ t.blk = s.blk := by
  obtain ⟨level, rfl, -⟩ | rfl | ⟨-, hblk⟩ | ⟨-, hblk⟩ := exec_next_cases hreset h
  · cases hdomain
  · exact absurd rfl hdecode
  · exact .inl hblk
  · exact .inr hblk

theorem exec_cooperative_keeps_frameMachine (hreset : i ≠ .reset) (hdecode : i ≠ .decode)
    (hdomain : i.domain = .cooperative) (h : exec i s = .next t) :
    t.blk.fstate = s.blk.fstate ∧ t.blk.tmo = s.blk.tmo ∧ t.blk.hist = s.blk.hist ∧ t.blk.bytePos = s.blk.bytePos ∧
    t.blk.bitPos = s.blk.bitPos ∧ t.blk.evtValid = s.blk.evtValid := by
  obtain hblk | hblk := exec_cooperative_blk hreset hdecode hdomain h <;> simp [hblk]

end

/-- Settles O54. -/
theorem eachDomainWritesOnlyItsOwnFields : Obligations.EachDomainWritesOnlyItsOwnFields := fun _ _ _ hreset h =>
  ⟨exec_cooperative_frame hreset h, exec_tick_frame hreset h,
    fun hdecode a => by rw [exec_keeps_mem hreset hdecode h],
    fun hdecode hdomain => by
      obtain ⟨hfstate, htmo, hhist, hbyte, hbit, hevent⟩ :=
        exec_cooperative_keeps_frameMachine hreset hdecode hdomain h
      exact ⟨hfstate, htmo, hhist, hbyte, hbit, hevent, fun hack => exec_keeps_pktReady h hdecode hack hreset⟩⟩

end Sys2Proof.Machine
end

section
/-! PROOFS. The statement of 20_memory.md on a completed packet: which command takes it away (section 5). -/

namespace Sys2Proof.Machine

section
variable {i : Instr} {s t : State}

/-- From the sentinel history the SEEK step matches exactly on a 0. -/
theorem seekStep_of_sentinel {b : Block} (bit : Bool) (h : b.hist = 0xFF#8) :
    seekStep b bit = if bit then pushHistory b bit else startFrame (pushHistory b bit) := by
  cases bit with
  | true => exact seekStep_no_match (by simp [h, syncMatch_shiftIn])
  | false => exact seekStep_match (by simp [h, syncMatch_shiftIn])

/-- Outside ACC every DECODE is nothing, or a SEEK step from the sentinel history. -/
theorem exec_decode_searching (hinv : s.Inv) (hf : s.blk.fstate ≠ .acc) (h : exec .decode s = .next t) :
    (s.blk.evtValid = false ∧ t.blk = s.blk) ∨
    (s.blk.evtValid = true ∧ ∃ b : Block, b.fstate = .seek ∧ b.hist = 0xFF#8 ∧ b.mem = s.blk.mem ∧
      b.pktReady = s.blk.pktReady ∧ t.blk = seekStep b s.blk.evtBit) := by
  obtain ⟨hv, rfl⟩ | ⟨hv, -, rfl⟩ | ⟨hv, hseek, rfl⟩ | ⟨-, hacc, -⟩ := exec_decode_next_cases h
  · exact .inl ⟨hv, rfl⟩
  · exact .inr ⟨hv, idleStep (takeEvent s.blk), rfl, rfl, rfl, rfl, rfl⟩
  · exact .inr ⟨hv, takeEvent s.blk, hseek, hinv.frame.seek_hist hseek, rfl, rfl, rfl⟩
  · exact absurd hacc hf

theorem timeoutStep_fstate_cases (c : Config) (b : Block) :
    (timeoutStep c b).fstate = .idle ∨ (timeoutStep c b).fstate = b.fstate := by
  obtain ⟨-, h⟩ | ⟨-, -, h⟩ | ⟨-, -, h⟩ := timeoutStep_cases c b <;> simp [h]

/-- Outside ACC only a DECODE that takes a 0 enters ACC, and the match withdraws `pkt_ready`; else the buffer stays. -/
theorem exec_outside_acc (hinv : s.Inv) (hf : s.blk.fstate ≠ .acc) (hreset : i ≠ .reset) (h : exec i s = .next t) :
    (t.blk.fstate ≠ .acc ∧ t.blk.mem = s.blk.mem ∧ (i ≠ .ack → t.blk.pktReady = s.blk.pktReady)) ∨
    (t.blk.fstate = .acc ∧ i = .decode ∧ s.blk.evtValid = true ∧ s.blk.evtBit = false ∧ t.blk.pktReady = false) := by
  by_cases hdecode : i = .decode
  · subst hdecode
    obtain ⟨-, hblk⟩ | ⟨hv, b, hseek, hhist, hmem, hready, hblk⟩ := exec_decode_searching hinv hf h
    · exact .inl (by simp [hblk, hf])
    · rw [hblk, seekStep_of_sentinel _ hhist]
      cases hbit : s.blk.evtBit with
      | true => exact .inl (by simp [hseek, hmem, hready])
      | false => exact .inr (by simp [hv])
  · refine .inl ⟨?_, exec_keeps_mem hreset hdecode h, fun hack => exec_keeps_pktReady h hdecode hack hreset⟩
    obtain ⟨level, -, hblk⟩ | rfl | ⟨-, hblk⟩ | ⟨-, hblk⟩ := exec_next_cases hreset h
    · obtain ⟨hsampler, -⟩ := samplerStep_frame s.config level s.blk
      obtain hidle | hsame := timeoutStep_fstate_cases s.config (samplerStep s.config level s.blk)
      · simp [hblk, hidle]
      · simp [hblk, hsame, hsampler, hf]
    · exact absurd rfl hdecode
    · simp [hblk, hf]
    · simp [hblk, hf]

end

/-- Settles O55: with `pkt_ready` set the frame machine is outside ACC (rule R40 item 4). -/
theorem completedPacketStaysUntilAMatch : Obligations.CompletedPacketStaysUntilAMatch := by
  intro i s t hinv hready hreset h
  obtain ⟨hf, -⟩ := hinv.frame.ready hready
  obtain ⟨hout, hmem, hkeep⟩ | ⟨hacc, hdecode, hv, hbit, hwithdrawn⟩ := exec_outside_acc hinv hf hreset h
  · exact ⟨fun _ => ⟨fun a => by rw [hmem], fun hack => (hkeep hack).trans hready⟩, fun hacc => absurd hacc hout⟩
  · exact ⟨fun hout => absurd hacc hout, fun _ => ⟨hdecode, hv, hbit, hwithdrawn⟩⟩

end Sys2Proof.Machine
end

section
/-! PROOFS. The statement of 41_decode.md on the one stop of DECODE (rule R50; log entry 8). -/

namespace Sys2Proof.Machine

/-- Settles O29: no answer of DECODE is possible there, and it has no other stop. -/
theorem decodeStopsWhereNoByteIsAddressed : Obligations.DecodeStopsWhereNoByteIsAddressed := by
  intro s hpending hacc h5
  obtain ⟨t, ht⟩ | ⟨-, -, hfault⟩ := exec_decode_answers_or_faults s
  · obtain ⟨hv, -⟩ | ⟨-, hf, -⟩ | ⟨-, hf, -⟩ | ⟨-, -, hp, -⟩ := exec_decode_next_cases ht
    · simp [hpending] at hv
    · simp [hacc] at hf
    · simp [hacc] at hf
    · omega
  · exact hfault

end Sys2Proof.Machine
end

section
/-! PROOFS. The statements of 30_encoding.md on words and steps: the decoder and the encoder are inverse (Part 2), a
step runs the command its word decodes to, and a list of words runs as its commands (Part 3). -/

namespace Sys2Proof

/-! ### The two fields of a command word (rule R85) -/

@[simp] theorem opField_commandWord (op arg : BitVec 4) : opField (commandWord op arg) = op :=
  BitVec.extractLsb'_append_eq_left

@[simp] theorem argField_commandWord (op arg : BitVec 4) : argField (commandWord op arg) = arg :=
  BitVec.extractLsb'_append_eq_right

/-- A word is its two fields: no bit of it is outside them. -/
theorem commandWord_fields (w : CommandWord) : commandWord (opField w) (argField w) = w := by
  revert w
  decide

theorem commandWord_of_opField {w : CommandWord} {n : Nat} (h : (opField w).toNat = n) :
    commandWord (BitVec.ofNat 4 n) (argField w) = w := by
  rw [← h, BitVec.ofNat_toNat, BitVec.setWidth_eq, commandWord_fields]

/-! ### The operand field of each form (rules R87, R88), decoded and encoded -/

theorem decodeTick_argument (level : Bool) : decodeTick (0#3 ++ BitVec.ofBool level) = .ok (.tick level) := by
  cases level <;> rfl

theorem decodePlain_zero (i : Instr) : decodePlain i 0#4 = .ok i := rfl

theorem decodeRdbyte_argument {i : BitVec 3} (h : i.toNat ≤ 4) : decodeRdbyte (0#1 ++ i) = .ok (.rdbyte i) := by
  have hindex : (0#1 ++ i).extractLsb' 0 3 = i := BitVec.extractLsb'_append_eq_right
  have hhigh : ∀ i : BitVec 3, (0#1 ++ i).getLsbD 3 = false := by decide
  simp only [decodeRdbyte, hindex, hhigh, h, and_self, if_true]

theorem decodeRdstat_argument {k : BitVec 4} (h : k.toNat ≤ 9) : decodeRdstat k = .ok (.rdstat k) := if_pos h

section
variable {arg : BitVec 4} {i j : Instr}

theorem encode_of_decodeTick (h : decodeTick arg = .ok i) : encode i = commandWord 0x1#4 arg := by
  unfold decodeTick at h
  split at h
  · next h0 =>
    cases h
    have harg : 0#3 ++ BitVec.ofBool (arg.getLsbD 0) = arg := by
      revert arg
      decide
    rw [encode, harg]
  · cases h

theorem encode_of_decodePlain {op : BitVec 4} (hj : encode j = commandWord op 0#4) (h : decodePlain j arg = .ok i) :
    encode i = commandWord op arg := by
  unfold decodePlain at h
  split at h
  · next h0 =>
    cases h
    rw [hj, h0]
  · cases h

theorem encode_of_decodeRdbyte (h : decodeRdbyte arg = .ok i) : encode i = commandWord 0x4#4 arg := by
  unfold decodeRdbyte at h
  split at h
  · next h0 =>
    cases h
    have harg : 0#1 ++ arg.extractLsb' 0 3 = arg := by
      revert arg
      decide
    rw [encode, harg]
  · cases h

theorem encode_of_decodeRdstat (h : decodeRdstat arg = .ok i) : encode i = commandWord 0xE#4 arg := by
  unfold decodeRdstat at h
  split at h
  · cases h
    rfl
  · cases h

end

/-! ### The decoder and the encoder (rules R86, R89) -/

/-- The rows of rule R89, one for each form of command: `op` selects the row, and the row reads `arg`. -/
theorem decodeWord_encode {i : Instr} (h : WellFormed i) : decodeWord (encode i) = .ok i := by
  cases i with
  | tick level => simpa [decodeWord, encode] using decodeTick_argument level
  | rdbyte i => simpa [decodeWord, encode] using decodeRdbyte_argument (of_decide_eq_true h)
  | rdstat k => simpa [decodeWord, encode] using decodeRdstat_argument (of_decide_eq_true h)
  | decode | poll | ack | crc | valid | sid | hum | temp | reset => exact decodePlain_zero _

/-- Settles O6. -/
theorem decodingAnEncodedCommandGivesItBack : Obligations.DecodingAnEncodedCommandGivesItBack :=
  fun _ => decodeWord_encode

/-- The row that decoded the word names its `op`, and the operand it read names its `arg`. -/
theorem encode_of_decodeWord {w : CommandWord} {i : Instr} (h : decodeWord w = .ok i) : encode i = w := by
  unfold decodeWord at h
  split at h
  · next hop => exact (encode_of_decodeTick h).trans (commandWord_of_opField hop)
  · next hop => exact (encode_of_decodePlain (j := .decode) rfl h).trans (commandWord_of_opField hop)
  · next hop => exact (encode_of_decodePlain (j := .poll) rfl h).trans (commandWord_of_opField hop)
  · next hop => exact (encode_of_decodeRdbyte h).trans (commandWord_of_opField hop)
  · next hop => exact (encode_of_decodePlain (j := .ack) rfl h).trans (commandWord_of_opField hop)
  · next hop => exact (encode_of_decodePlain (j := .crc) rfl h).trans (commandWord_of_opField hop)
  · next hop => exact (encode_of_decodePlain (j := .valid) rfl h).trans (commandWord_of_opField hop)
  · next hop => exact (encode_of_decodePlain (j := .sid) rfl h).trans (commandWord_of_opField hop)
  · next hop => exact (encode_of_decodePlain (j := .hum) rfl h).trans (commandWord_of_opField hop)
  · next hop => exact (encode_of_decodePlain (j := .temp) rfl h).trans (commandWord_of_opField hop)
  · next hop => exact (encode_of_decodeRdstat h).trans (commandWord_of_opField hop)
  · next hop => exact (encode_of_decodePlain (j := .reset) rfl h).trans (commandWord_of_opField hop)
  · cases h

/-- Settles O7. -/
theorem encodingADecodedWordGivesItBack : Obligations.EncodingADecodedWordGivesItBack :=
  fun _ _ h => ⟨wellFormed_of_decodeWord h, encode_of_decodeWord h⟩

/-- Settles O8: each word is the encoding of its command, as rule R86 writes it. -/
theorem wordsOfTheTableDecode : Obligations.WordsOfTheTableDecode :=
  ⟨decodeWord_encode (i := .tick true) rfl, decodeWord_encode (i := .decode) rfl,
    decodeWord_encode (i := .rdbyte 3#3) rfl, decodeWord_encode (i := .temp) rfl,
    decodeWord_encode (i := .rdstat 8#4) rfl, decodeWord_encode (i := .reset) rfl⟩

end Sys2Proof

namespace Sys2Proof.Machine

/-! ### A step and a run (rules R57, R93) -/

/-- A step on a schedule that begins with the word of a command runs the command. -/
theorem step_of_decodeWord_ok {s : State} {w : CommandWord} {rest : List CommandWord} {i : Instr} (hc : s.config.wf)
    (hs : s.schedule = w :: rest) (hd : decodeWord w = .ok i) : step s = exec i { s with schedule := rest } := by
  simp only [step, if_pos hc, fetch, hs, hd]

/-- Settles O4. -/
theorem stepRunsTheDecodedCommand : Obligations.StepRunsTheDecodedCommand :=
  fun _ _ _ _ hc hs hd => ⟨wellFormed_of_decodeWord hd, step_of_decodeWord_ok hc hs hd⟩

/-- The outcome with another schedule left. -/
def withSchedule (l : List CommandWord) : Host.Outcome State Fault Refusal → Host.Outcome State Fault Refusal
  | .next t => .next { t with schedule := l }
  | .fault f => .fault f
  | .refused r => .refused r

theorem exec_decode_with_schedule (s : State) (l : List CommandWord) :
    exec .decode { s with schedule := l } = withSchedule l (exec .decode s) := by
  obtain ⟨hv, -⟩ | ⟨hv, hf, -⟩ | ⟨hv, hf, -⟩ | ⟨hv, hf, hp, hfault⟩ | ⟨hv, hf, hp, -⟩ := execDecode_cases s
  · rw [exec_decode_nothing_pending hv, exec_decode_nothing_pending (s := { s with schedule := l }) hv]
    rfl
  · rw [exec_decode_idle hv hf, exec_decode_idle (s := { s with schedule := l }) hv hf]
    rfl
  · rw [exec_decode_seek hv hf, exec_decode_seek (s := { s with schedule := l }) hv hf]
    rfl
  · rw [decodeStopsWhereNoByteIsAddressed s hv hf (congrArg Fin.val hp),
      decodeStopsWhereNoByteIsAddressed { s with schedule := l } hv hf (congrArg Fin.val hp)]
    rfl
  · rw [exec_decode_acc hv hf hp, exec_decode_acc (s := { s with schedule := l }) hv hf hp]
    rfl

/-- No command reads the schedule: it hands on the one it is given (log entry 2). -/
theorem exec_with_schedule (i : Instr) (s : State) (l : List CommandWord) :
    exec i { s with schedule := l } = withSchedule l (exec i s) := by
  cases i with
  | decode => exact exec_decode_with_schedule s l
  | rdbyte i =>
    simp only [exec, execRdbyte]
    cases memRead s.blk.mem i.toNat <;> rfl
  | rdstat k =>
    simp only [exec, execRdstat]
    cases statusValue s.config s.blk k <;> rfl
  | tick | poll | ack | crc | valid | sid | hum | temp | reset => rfl

/-- Settles O9, by induction on the commands: each step leaves the configuration and the schedule that the next one
needs. -/
theorem runningEncodedCommandsExecutesThem : Obligations.RunningEncodedCommandsExecutesThem := by
  intro commands rest s hc hwf
  induction commands generalizing s with
  | nil => rfl
  | cons i commands ih =>
    obtain ⟨hi, hcommands⟩ := List.forall_mem_cons.mp hwf
    have hstep : step { s with schedule := (i :: commands).map encode ++ rest } =
        withSchedule (commands.map encode ++ rest) (exec i { s with schedule := rest }) :=
      (step_of_decodeWord_ok (s := { s with schedule := (i :: commands).map encode ++ rest }) hc rfl
        (decodeWord_encode hi)).trans
        (exec_with_schedule i { s with schedule := rest } (commands.map encode ++ rest))
    rw [List.length_cons, core_run_succ, hstep]
    cases hexec : exec i { s with schedule := rest } with
    | next t =>
      obtain ⟨hconfig, rfl⟩ := exec_keeps_config hexec
      rw [execAll_cons_next commands hexec]
      exact ih t (hconfig ▸ hc) hcommands
    | fault f =>
      rw [execAll, hexec]
      rfl
    | refused r =>
      rw [execAll, hexec]
      rfl

end Sys2Proof.Machine
end

section
/-! PROOFS. The statements of 40_tick.md section 4: the frame of TICK, the two steps of TICK commute, and what any
number of TICKs does to a pulse, a gap and the timeout. -/

namespace Sys2Proof.Machine

/-! ### The frame of TICK (rule R107) -/

theorem firesTimeout_iff {i : Instr} {s : State} :
    firesTimeout i s = true ↔ (∃ level, i = .tick level) ∧ s.blk.tmo ≠ 0 ∧ s.config.tmoMax < s.blk.tmo + 1 :=
  meetsCondition_pktTimeout_iff

/-- Settles O17. -/
theorem tickLeavesTheCooperativeStateAlone : Obligations.TickLeavesTheCooperativeStateAlone := by
  intro level s
  obtain ⟨hhist, hbyte, hbit, hmem, hready, hevent⟩ := tickSteps_frame s.config level s.blk
  have ht := exec_tick level s
  refine ⟨_, ht, fun a => by rw [hmem], hready, hhist, hbyte, hbit, hevent, fun hchanged => ?_, rfl, rfl, rfl⟩
  cases hfires : meetsCondition s.config s.blk (.tick level) .pktTimeout with
  | true =>
    obtain ⟨⟨_, -, hblk⟩, -⟩ := exec_pktTimeout ht hfires
    exact ⟨by rw [hblk], hfires⟩
  | false => exact absurd (exec_tick_keeps_fstate ht hfires) hchanged

/-! ### The sampler step and the timeout step commute (rule R106) -/

theorem SamplerState.eq_wait_or_acq_or_gap (st : SamplerState) : st = .wait ∨ st = .acq ∨ st = .gap := by
  cases st <;> simp

section
variable (c : Config) (b : Block) (f : FrameState) (n : Nat)

theorem waitStep_with_frame (level : Bool) :
    waitStep level { b with fstate := f, tmo := n } = { waitStep level b with fstate := f, tmo := n } := by
  unfold waitStep
  split
  · split <;> rfl
  · rfl

theorem classifyPulse_with_frame :
    classifyPulse c { b with fstate := f, tmo := n } = { classifyPulse c b with fstate := f, tmo := n } := by
  unfold classifyPulse
  split
  · rfl
  · split <;> rfl

theorem endGap_with_frame :
    endGap c { b with fstate := f, tmo := n } = { endGap c b with fstate := f, tmo := n } := by
  unfold endGap
  split
  · rfl
  · split <;> rfl

/-- The sampler step neither reads nor writes the frame state and the timeout: it commutes with replacing them. -/
theorem samplerStep_with_frame (level : Bool) :
    samplerStep c level { b with fstate := f, tmo := n } = { samplerStep c level b with fstate := f, tmo := n } := by
  obtain hs | hs | hs := b.sstate.eq_wait_or_acq_or_gap
  · rw [samplerStep_wait level hs, samplerStep_wait (b := { b with fstate := f, tmo := n }) level hs]
    exact waitStep_with_frame b f n level
  · cases level with
    | true =>
      rw [samplerStep_acq_high hs, samplerStep_acq_high (b := { b with fstate := f, tmo := n }) hs]
      rfl
    | false =>
      rw [samplerStep_acq_low hs, samplerStep_acq_low (b := { b with fstate := f, tmo := n }) hs]
      exact classifyPulse_with_frame c (countSample c b) f n
  · cases level with
    | true =>
      rw [samplerStep_gap_high hs, samplerStep_gap_high (b := { b with fstate := f, tmo := n }) hs]
      exact endGap_with_frame c (countSample c b) f n
    | false =>
      rw [samplerStep_gap_low hs, samplerStep_gap_low (b := { b with fstate := f, tmo := n }) hs]
      rfl

end

/-- The timeout step reads only the counter it replaces, which the sampler step hands on. -/
theorem timeoutStep_samplerStep_comm (c : Config) (level : Bool) (b : Block) :
    timeoutStep c (samplerStep c level b) = samplerStep c level (timeoutStep c b) := by
  obtain ⟨hfstate, -, -, -, -, -, htmo, -⟩ := samplerStep_frame c level b
  obtain ⟨hoff, ht⟩ | ⟨hon, hgt, ht⟩ | ⟨hon, hle, ht⟩ := timeoutStep_cases c b
  · rw [ht, timeoutStep_inactive (htmo.trans hoff)]
  · rw [ht, timeoutStep_fires (by rwa [htmo]) (by rwa [htmo])]
    exact (samplerStep_with_frame c b .idle 0 level).symm
  · rw [ht, timeoutStep_counts (by rwa [htmo]) (by rwa [htmo]), htmo,
      samplerStep_with_frame c b b.fstate (b.tmo + 1) level, ← hfstate]

/-- Settles O18. -/
theorem samplerAndTimeoutStepsCommute : Obligations.SamplerAndTimeoutStepsCommute := timeoutStep_samplerStep_comm

/-! ### Any number of TICKs: the samples, then as many timeout steps -/

/-- The sampler steps of a sequence of levels. -/
def sampleAll (c : Config) (levels : List Bool) (b : Block) : Block :=
  levels.foldl (fun b level => samplerStep c level b) b

section
variable (c : Config) (b : Block)

@[simp] theorem sampleAll_nil : sampleAll c [] b = b := rfl

@[simp] theorem sampleAll_cons (level : Bool) (levels : List Bool) :
    sampleAll c (level :: levels) b = sampleAll c levels (samplerStep c level b) := rfl

theorem sampleAll_append (first rest : List Bool) :
    sampleAll c (first ++ rest) b = sampleAll c rest (sampleAll c first b) := List.foldl_append

theorem sampleAll_timeoutStep (levels : List Bool) :
    sampleAll c levels (timeoutStep c b) = timeoutStep c (sampleAll c levels b) := by
  induction levels generalizing b with
  | nil => rfl
  | cons level levels ih => rw [sampleAll_cons, ← timeoutStep_samplerStep_comm, ih, sampleAll_cons]

/-- Sampling leaves the frame machine, the timeout and the packet alone. -/
theorem sampleAll_frame (levels : List Bool) :
    (sampleAll c levels b).fstate = b.fstate ∧ (sampleAll c levels b).tmo = b.tmo ∧
    (sampleAll c levels b).mem = b.mem ∧ (sampleAll c levels b).pktReady = b.pktReady := by
  induction levels generalizing b with
  | nil => exact ⟨rfl, rfl, rfl, rfl⟩
  | cons level levels ih =>
    obtain ⟨hfstate, -, -, -, hmem, hready, htmo, -⟩ := samplerStep_frame c level b
    have hrest := ih (samplerStep c level b)
    rwa [hfstate, htmo, hmem, hready] at hrest

/-- The timeout steps leave the sampler and the event slot alone. -/
theorem timeoutStep_iterate_frame (n : Nat) :
    ((timeoutStep c)^[n] b).sstate = b.sstate ∧ ((timeoutStep c)^[n] b).cnt = b.cnt ∧
    ((timeoutStep c)^[n] b).evtValid = b.evtValid ∧ ((timeoutStep c)^[n] b).evtBit = b.evtBit := by
  induction n with
  | zero => exact ⟨rfl, rfl, rfl, rfl⟩
  | succ n ih => simpa only [Function.iterate_succ_apply', timeoutStep_frame] using ih

end

section
variable {c : Config} {b : Block}

theorem timeoutStep_iterate_inactive (n : Nat) (h : b.tmo = 0) : (timeoutStep c)^[n] b = b :=
  Function.iterate_fixed (timeoutStep_inactive h) n

/-- Within its budget the timeout counts every TICK. -/
theorem timeoutStep_iterate_counts {n : Nat} (h : b.tmo ≠ 0) (hle : b.tmo + n ≤ c.tmoMax) :
    (timeoutStep c)^[n] b = { b with tmo := b.tmo + n } := by
  induction n with
  | zero => rfl
  | succ n ih =>
    have hon : b.tmo + n ≠ 0 := by omega
    rw [Function.iterate_succ_apply', ih (by omega), timeoutStep_counts (b := { b with tmo := b.tmo + n }) hon hle]
    rfl

end

theorem execAll_ticks (levels : List Bool) (s : State) :
    ∃ t, execAll (levels.map Instr.tick) s = .next t ∧ t.config = s.config ∧
      t.blk = (timeoutStep s.config)^[levels.length] (sampleAll s.config levels s.blk) := by
  induction levels generalizing s with
  | nil => exact ⟨s, rfl, rfl, rfl⟩
  | cons level levels ih =>
    obtain ⟨t, ht, hconfig, hblk⟩ :=
      ih ⟨s.config, timeoutStep s.config (samplerStep s.config level s.blk), none, s.schedule⟩
    refine ⟨t, (execAll_cons_next _ (exec_tick level s)).trans ht, hconfig, ?_⟩
    rw [hblk, sampleAll_timeoutStep, List.length_cons, Function.iterate_succ_apply, sampleAll_cons]

/-- The sampler and the event slot after TICKs are those after the samples. -/
theorem execAll_ticks_sampler (levels : List Bool) (s : State) :
    ∃ t, execAll (levels.map Instr.tick) s = .next t ∧
      t.blk.sstate = (sampleAll s.config levels s.blk).sstate ∧ t.blk.cnt = (sampleAll s.config levels s.blk).cnt ∧
      t.blk.evtValid = (sampleAll s.config levels s.blk).evtValid ∧
      t.blk.evtBit = (sampleAll s.config levels s.blk).evtBit := by
  obtain ⟨t, ht, -, hblk⟩ := execAll_ticks levels s
  exact ⟨t, ht, hblk ▸ timeoutStep_iterate_frame _ _ _⟩

theorem ticks_eq_map (level : Bool) (n : Nat) : ticks level n = (List.replicate n level).map Instr.tick :=
  List.map_replicate.symm

/-! ### The timeout's budget (rule R105) -/

/-- Settles O21: the last TICK of the budget meets a counter at `TMO_MAX`. -/
theorem timeoutFiresOnTheLastTickOfItsBudget : Obligations.TimeoutFiresOnTheLastTickOfItsBudget := by
  intro s levels hone hlen hpos
  obtain ⟨t, ht, -, hblk⟩ := execAll_ticks levels s
  obtain ⟨hfstate, htmo, -⟩ := sampleAll_frame s.config s.blk levels
  rw [hone] at htmo
  refine ⟨t, ht, fun hlt => ?counts, fun heq => ?fires⟩
  case counts =>
    rw [hblk, timeoutStep_iterate_counts (by simp [htmo]) (by omega), htmo]
    exact ⟨rfl, hfstate⟩
  case fires =>
    obtain ⟨k, hk⟩ := Nat.exists_eq_add_of_le' hpos
    rw [hblk, heq, hk, Function.iterate_succ_apply',
      timeoutStep_iterate_counts (by simp [htmo]) (by omega), timeoutStep_fires (by simp [htmo]) (by simp [htmo, hk])]
    exact ⟨rfl, rfl⟩

/-! ### Counting samples (rules R101, R103, R104) -/

theorem satInc_eq_min (c : Config) (v : Nat) : satInc c v = min (v + 1) c.cntMax := by
  by_cases h : v < c.cntMax
  · rw [satInc_of_lt h, min_eq_left h]
  · rw [satInc_of_le (not_lt.mp h), min_eq_right (by omega)]

section
variable {c : Config} {b : Block}

/-- Samples that only count add up, to the saturated count. -/
theorem sampleAll_replicate_counts {st : SamplerState} {level : Bool}
    (hstep : ∀ {b : Block}, b.sstate = st → samplerStep c level b = countSample c b) (n : Nat) (hs : b.sstate = st)
    (hcnt : b.cnt ≤ c.cntMax) :
    sampleAll c (List.replicate n level) b = { b with cnt := min (b.cnt + n) c.cntMax } := by
  induction n generalizing b with
  | zero => simp [hcnt]
  | succ n ih =>
    have hmin : min (satInc c b.cnt + n) c.cntMax = min (b.cnt + (n + 1)) c.cntMax := by
      rw [satInc_eq_min]
      omega
    rw [List.replicate_succ, sampleAll_cons, hstep hs, ih (b := countSample c b) hs (satInc_le c b.cnt),
      countSample_cnt, hmin]
    rfl

/-- Where a pulse can start, the next HIGH sample starts it. -/
theorem samplerStep_starts_pulse (h : pulseCanStart c b) :
    ∃ low, samplerStep c true b = { b with sstate := .acq, cnt := 0, wasLow := low } := by
  obtain ⟨hs, hlow⟩ | ⟨hs, hmin, hmax⟩ := h
  · exact ⟨false, by rw [samplerStep_wait true hs, waitStep_rising_edge hlow]; rfl⟩
  · exact ⟨b.wasLow, by rw [samplerStep_gap_high hs, endGap_pulse (b := countSample c b) hmax hmin]; rfl⟩

/-- A pulse is tested with its width in the count, up to saturation: the first sample starts it, and the LOW one that
ends it counts. -/
theorem sampleAll_pulse {w : Nat} (h : pulseCanStart c b) (hw : 1 ≤ w) :
    ∃ low, sampleAll c (List.replicate w true ++ [false]) b =
      classifyPulse c { b with sstate := .acq, cnt := min w c.cntMax, wasLow := low } := by
  obtain ⟨low, hstart⟩ := samplerStep_starts_pulse h
  obtain ⟨n, rfl⟩ := Nat.exists_eq_add_of_le' hw
  have hcount : satInc c (min (0 + n) c.cntMax) = min (n + 1) c.cntMax := by
    rw [satInc_eq_min]
    omega
  have hhigh : sampleAll c (List.replicate (n + 1) true) b =
      { b with sstate := .acq, cnt := min (0 + n) c.cntMax, wasLow := low } := by
    rw [List.replicate_succ, sampleAll_cons, hstart]
    exact sampleAll_replicate_counts samplerStep_acq_high n rfl (Nat.zero_le _)
  refine ⟨low, ?_⟩
  rw [sampleAll_append, hhigh, sampleAll_cons, sampleAll_nil, samplerStep_acq_low (by rfl)]
  simp only [countSample, hcount]

/-- Below the saturated count a width is in a range exactly if its count is. -/
theorem min_cntMax_in_range_iff {w lo hi : Nat} (hhi : hi < c.cntMax) :
    (lo ≤ min w c.cntMax ∧ min w c.cntMax ≤ hi) ↔ lo ≤ w ∧ w ≤ hi := by
  omega

end

/-- Settles O19: the three clauses are the three cases of the end of a pulse, and both ranges end below saturation. -/
theorem pulseWidthDecidesTheBit : Obligations.PulseWidthDecidesTheBit := by
  intro s w hwf hw hstart
  obtain ⟨⟨-, -, hsep, hlo, hmax⟩, -, -⟩ := id hwf
  obtain ⟨low, hpulse⟩ := sampleAll_pulse hstart hw
  obtain ⟨t, ht, hsstate, hcnt, hvalid, hbit⟩ := execAll_ticks_sampler (List.replicate w true ++ [false]) s
  rw [List.map_append, ← ticks_eq_map] at ht
  have hhi_iff := min_cntMax_in_range_iff (w := w) (lo := s.config.hiMin)
    (show s.config.hiMax < s.config.cntMax by omega)
  have hlo_iff := min_cntMax_in_range_iff (w := w) (lo := s.config.loMin) hmax
  rw [hpulse] at hsstate hcnt hvalid hbit
  refine ⟨t, ht, ?cnt, fun h1 => ?one, fun h0 => ?zero, fun h1 h0 => ?malformed⟩
  case cnt =>
    rw [hcnt]
    obtain ⟨-, hp⟩ | ⟨-, -, hp⟩ | ⟨-, -, hp⟩ := classifyPulse_cases s.config
      { s.blk with sstate := .acq, cnt := min w s.config.cntMax, wasLow := low } <;> rw [hp] <;> rfl
  case one =>
    rw [hsstate, hvalid, hbit, classifyPulse_one (hhi_iff.mpr h1)]
    exact ⟨rfl, rfl, rfl⟩
  case zero =>
    have h1 : ¬ (s.config.hiMin ≤ w ∧ w ≤ s.config.hiMax) := fun h1 => hwf.pulse_ranges_disjoint ⟨h1, h0⟩
    rw [hsstate, hvalid, hbit, classifyPulse_zero (mt hhi_iff.mp h1) (hlo_iff.mpr h0)]
    exact ⟨rfl, rfl, rfl⟩
  case malformed =>
    rw [hsstate, hvalid, hbit, classifyPulse_malformed (mt hhi_iff.mp h1) (mt hlo_iff.mp h0)]
    exact ⟨rfl, rfl, rfl⟩

/-- A gap is tested with its length in the count, up to saturation. -/
theorem sampleAll_gap {c : Config} {b : Block} (n : Nat) (hs : b.sstate = .gap) (hcnt : b.cnt = 0) :
    sampleAll c (List.replicate n false ++ [true]) b = endGap c { b with cnt := min (n + 1) c.cntMax } := by
  have hcount : satInc c (min (0 + n) c.cntMax) = min (n + 1) c.cntMax := by
    rw [satInc_eq_min]
    omega
  rw [sampleAll_append, sampleAll_replicate_counts samplerStep_gap_low n hs (by omega), sampleAll_cons, sampleAll_nil,
    samplerStep_gap_high (by exact hs)]
  simp only [countSample, hcnt, hcount]

/-- Settles O20: the clauses are the three cases of the HIGH edge, and `GAP_DESYNC` is at most the saturated count. -/
theorem gapLengthDecidesTheNextState : Obligations.GapLengthDecidesTheNextState := by
  intro s n hwf hs hcnt
  obtain ⟨-, ⟨-, hgap, hmax⟩, -⟩ := hwf
  obtain ⟨t, ht, hsstate, hcount, hvalid, hbit⟩ := execAll_ticks_sampler (List.replicate n false ++ [true]) s
  rw [List.map_append, ← ticks_eq_map] at ht
  rw [sampleAll_gap n hs hcnt] at hsstate hcount hvalid hbit
  refine ⟨t, ht, fun hd => ?desync, fun hm hd => ?pulse, fun hm => ?early, ?evtValid, ?evtBit⟩
  case desync =>
    rw [hsstate, hcount, endGap_desync (by simp only; omega)]
    exact ⟨rfl, rfl⟩
  case pulse =>
    rw [hsstate, hcount, endGap_pulse (by simp only; omega) (by simp only; omega)]
    exact ⟨rfl, rfl⟩
  case early =>
    rw [hsstate, hcount, endGap_early (by simp only; omega) (by simp only; omega)]
    exact ⟨hs, min_eq_left (by omega)⟩
  all_goals
    obtain ⟨-, hg⟩ | ⟨-, -, hg⟩ | ⟨-, -, hg⟩ :=
      endGap_cases s.config { s.blk with cnt := min (n + 1) s.config.cntMax } <;> simp [hvalid, hbit, hg]

/-! ### Two classifications are apart (rule R112) -/

/-- `n` samples after a classification that was taken, no event can be pending before `GAP_MIN + HI_MIN`: the gap took
`GAP_MIN` samples at least, and the count of a pulse began after it. -/
structure Spaced (c : Config) (n : Nat) (b : Block) : Prop where
  no_event : b.evtValid = false
  gap : b.sstate = .gap → b.cnt ≤ n
  wait : b.sstate = .wait → c.gapMin ≤ n
  acq : b.sstate = .acq → c.gapMin + b.cnt ≤ n

theorem satInc_le_succ (c : Config) (v : Nat) : satInc c v ≤ v + 1 := by
  rw [satInc_eq_min]
  exact min_le_left _ _

section
variable {c : Config} {b : Block} {n : Nat}

theorem samplerStep_keeps_spaced (hwf : c.wf) (level : Bool) (h : Spaced c n b) (hn : n + 1 < c.gapMin + c.hiMin) :
    Spaced c (n + 1) (samplerStep c level b) := by
  have hcount := satInc_le_succ c b.cnt
  cases hs : b.sstate with
  | wait =>
    have hgap := h.wait hs
    rw [samplerStep_wait level hs]
    obtain ⟨-, -, hw⟩ | ⟨-, -, hw⟩ | ⟨-, hw⟩ := waitStep_cases level b <;> rw [hw]
    · exact ⟨h.no_event, by simp, by simp, fun _ => by simp; omega⟩
    · exact ⟨h.no_event, by simp [hs], fun _ => by omega, by simp [hs]⟩
    · exact ⟨h.no_event, by simp [hs], fun _ => by omega, by simp [hs]⟩
  | acq =>
    have hpulse := h.acq hs
    cases level with
    | true =>
      rw [samplerStep_acq_high hs]
      exact ⟨h.no_event, by simp [hs], by simp [hs], fun _ => by simp only [countSample_cnt]; omega⟩
    | false =>
      -- the pulse is still shorter than both ranges
      obtain ⟨⟨-, hhi, hsep, -⟩, -⟩ := hwf
      rw [samplerStep_acq_low hs, classifyPulse_malformed (by simp only [countSample_cnt]; omega)
        (by simp only [countSample_cnt]; omega)]
      exact ⟨h.no_event, by simp, fun _ => by omega, by simp⟩
  | gap =>
    have hgap := h.gap hs
    cases level with
    | true =>
      obtain ⟨-, ⟨-, hdesync, -⟩, -⟩ := hwf
      rw [samplerStep_gap_high hs]
      obtain ⟨hd, hg⟩ | ⟨-, hm, hg⟩ | ⟨-, -, hg⟩ := endGap_cases c (countSample c b) <;> rw [hg]
      · exact ⟨h.no_event, by simp, fun _ => by simp only [countSample_cnt] at hd; omega, by simp⟩
      · exact ⟨h.no_event, by simp, by simp, fun _ => by
          simp only [countSample_cnt] at hm
          simp only [enterSampler_cnt]
          omega⟩
      · exact ⟨h.no_event, fun _ => by simp only [countSample_cnt]; omega, by simp [hs], by simp [hs]⟩
    | false =>
      rw [samplerStep_gap_low hs]
      exact ⟨h.no_event, fun _ => by simp only [countSample_cnt]; omega, by simp [hs], by simp [hs]⟩

theorem sampleAll_keeps_spaced (hwf : c.wf) (levels : List Bool) (h : Spaced c n b)
    (hn : n + levels.length < c.gapMin + c.hiMin) : Spaced c (n + levels.length) (sampleAll c levels b) := by
  induction levels generalizing n b with
  | nil => exact h
  | cons level levels ih =>
    rw [List.length_cons] at hn ⊢
    rw [sampleAll_cons, ← Nat.succ_add_eq_add_succ]
    exact ih (samplerStep_keeps_spaced hwf level h (by omega)) (by omega)

end

/-- Settles O22. -/
theorem classificationsAreSpacedApart : Obligations.ClassificationsAreSpacedApart := by
  intro s levels hwf hs hcnt hevent hlen
  have hstart : Spaced s.config 0 s.blk := ⟨hevent, fun _ => by omega, by simp [hs], by simp [hs]⟩
  have hend := sampleAll_keeps_spaced hwf levels hstart (by omega)
  obtain ⟨t, ht, -, -, hvalid, -⟩ := execAll_ticks_sampler levels s
  exact ⟨t, ht, hvalid.trans hend.no_event⟩

end Sys2Proof.Machine
end

section
/-! PROOFS. The statements of 41_decode.md section 3: the frame that a run's bits make, and the race of the timeout with
the completion. -/

namespace Sys2Proof.Machine

/-! ### The timeout and the last bit (rules R105, R135) -/

section
variable {s : State}

/-- A TICK that fires the timeout takes the frame machine to IDLE; outside ACQ it leaves the event slot. -/
theorem exec_tick_fires_keeping_event (level : Bool) (hs : s.blk.sstate ≠ .acq) (hon : s.blk.tmo ≠ 0)
    (hgt : s.config.tmoMax < s.blk.tmo + 1) :
    ∃ u, exec (.tick level) s = .next u ∧ u.blk.fstate = .idle ∧ u.blk.evtValid = s.blk.evtValid ∧
      u.blk.evtBit = s.blk.evtBit ∧ u.blk.mem = s.blk.mem ∧ u.blk.pktReady = s.blk.pktReady := by
  obtain ⟨-, -, -, -, hmem, hready, htmo, -⟩ := samplerStep_frame s.config level s.blk
  obtain ⟨hvalid, hbit⟩ := samplerStep_keeps_event s.config level hs
  refine ⟨_, exec_tick level s, ?_⟩
  rw [timeoutStep_fires (by rwa [htmo]) (by rwa [htmo])]
  exact ⟨rfl, hvalid, hbit, hmem, hready⟩

/-- With the timeout disarmed a TICK leaves the frame machine's fields and the buffer as they are. -/
theorem exec_tick_disarmed (level : Bool) (hoff : s.blk.tmo = 0) :
    ∃ t, exec (.tick level) s = .next t ∧ t.blk.fstate = s.blk.fstate ∧ t.blk.tmo = 0 ∧
      t.blk.pktReady = s.blk.pktReady ∧ t.blk.mem = s.blk.mem := by
  obtain ⟨hfstate, -, -, -, hmem, hready, htmo, -⟩ := samplerStep_frame s.config level s.blk
  refine ⟨_, exec_tick level s, ?_⟩
  rw [timeoutStep_inactive (htmo.trans hoff)]
  exact ⟨hfstate, htmo.trans hoff, hready, hmem⟩

/-- The DECODE that takes the last bit of byte 4 completes the packet with it. -/
theorem exec_decode_last_bit (hv : s.blk.evtValid = true) (hf : s.blk.fstate = .acc) (h4 : s.blk.bytePos.val = 4)
    (h7 : s.blk.bitPos.val = 7) :
    exec .decode s =
      .next ⟨s.config, completeFrame (accumulate (takeEvent s.blk) s.blk.evtBit), some 1#16, s.schedule⟩ := by
  have hp : s.blk.bytePos.val < 5 := by omega
  have h5 : (accumulate (takeEvent s.blk) s.blk.evtBit).bytePos.val = 5 :=
    (accumulate_bytePos_eq_five_iff (b := takeEvent s.blk) hp).mpr ⟨h4, h7⟩
  obtain ⟨hclose, hresult⟩ := closeFrame_complete h5
  rw [exec_decode_acc hv hf hp, hclose, hresult]

end

/-- Settles O31: in the first order DECODE finds IDLE and an untouched event, in the second TICK finds the timeout
disarmed. -/
theorem timeoutAndCompletionRaceBothWays : Obligations.TimeoutAndCompletionRaceBothWays := by
  intro s level hinv hf h4 h7 hv hs htmo
  constructor
  · have hnot_ready : s.blk.pktReady = false := Bool.eq_false_iff.mpr fun hr => (hinv.frame.ready hr).1 hf
    have hon : s.blk.tmo ≠ 0 := fun h0 => by simp [hinv.frame.idle_iff.mpr h0] at hf
    obtain ⟨u, hu, hidle, hvalid, hbit, hmem, hready⟩ := exec_tick_fires_keeping_event level hs hon (by omega)
    obtain ⟨t, ht, hresult, hone, h1, h0, -⟩ := decodeInIdleStartsASearch u (hvalid.trans hv) hidle
    rw [hbit] at h1 h0
    refine ⟨t, ?run, hresult, hone, ?ready, fun hb => ?searching, fun hb => ?matched⟩
    case run => rw [execAll_cons_next _ hu, execAll_cons_next _ ht, execAll_nil]
    case ready =>
      cases hb : s.blk.evtBit with
      | true =>
        obtain ⟨-, -, -, -, -, hkeep⟩ := h1 hb
        rw [hkeep, hready, hnot_ready]
      | false =>
        obtain ⟨-, -, -, -, -, hwithdrawn⟩ := h0 hb
        exact hwithdrawn
    case searching =>
      obtain ⟨hseek, -, hpacket, -⟩ := h1 hb
      exact ⟨hseek, fun a => (hpacket a).trans (by rw [hmem])⟩
    case matched =>
      obtain ⟨hacc, -, hclear, -⟩ := h0 hb
      exact ⟨hacc, fun i hi => (hclear i).trans (if_pos hi)⟩
  · have hdecode := exec_decode_last_bit hv hf h4 h7
    obtain ⟨t, ht, hfstate, hoff, hready, hmem⟩ := exec_tick_disarmed level
      (s := ⟨s.config, completeFrame (accumulate (takeEvent s.blk) s.blk.evtBit), some 1#16, s.schedule⟩) rfl
    refine ⟨t, ?_, hfstate, hoff, hready, ?_⟩
    · rw [execAll_cons_next _ hdecode, execAll_cons_next _ ht, execAll_nil]
    · have hlast := accumulate_pkt (takeEvent s.blk) s.blk.evtBit 4
      rw [takeEvent_bytePos, if_pos h4.symm, takeEvent_pkt] at hlast
      rw [Block.pkt, hmem]
      exact hlast

/-! ### The bytes that received bits make (rules R53, R134) -/

/-- Byte `j` of a packet whose bits received so far are `bits`, the terminator's 0 first. -/
def receivedByte (bits : List Bool) (j : Nat) : Byte := ((bits.drop (8 * j)).take 8).foldl shiftIn 0x00#8

/-- The record stands behind the bits received: its positions count them and its buffer holds them. -/
structure Holds (b : Block) (bits : List Bool) : Prop where
  position : 8 * b.bytePos.val + b.bitPos.val = bits.length
  bytes : ∀ j < 5, b.pkt j = receivedByte bits j

section
variable {bits : List Bool} {j : Nat}

/-- The next bit goes into the byte whose eight bits are not yet complete. -/
theorem receivedByte_concat_current (bit : Bool) (hstart : 8 * j ≤ bits.length) (hend : bits.length < 8 * j + 8) :
    receivedByte (bits ++ [bit]) j = shiftIn (receivedByte bits j) bit := by
  have hlen : (bits.drop (8 * j)).length < 8 := by
    rw [List.length_drop]
    omega
  rw [receivedByte, receivedByte, List.drop_append_of_le_length hstart, List.take_of_length_le (by simp; omega),
    List.take_of_length_le (by omega), List.foldl_append]
  rfl

/-- The next bit leaves the complete bytes and the bytes not begun as they are. -/
theorem receivedByte_concat_other (bit : Bool) (h : 8 * j + 8 ≤ bits.length ∨ bits.length < 8 * j) :
    receivedByte (bits ++ [bit]) j = receivedByte bits j := by
  obtain hdone | hlater := h
  · have hlen : 8 ≤ (bits.drop (8 * j)).length := by
      rw [List.length_drop]
      omega
    rw [receivedByte, receivedByte, List.drop_append_of_le_length (by omega), List.take_append_of_le_length hlen]
  · rw [receivedByte, receivedByte, List.drop_of_length_le (by simp; omega), List.drop_of_length_le (by omega)]

end

/-- The ACC step appends its bit to the bits received. -/
theorem accumulate_holds {b : Block} {bits : List Bool} (bit : Bool) (h : Holds b bits) (hp : b.bytePos.val < 5) :
    Holds (accumulate b bit) (bits ++ [bit]) := by
  have hpos := h.position
  refine ⟨?_, fun j hj => ?_⟩
  · rw [accumulate_one_bit hp, List.length_append, List.length_singleton, hpos]
  · rw [accumulate_pkt, h.bytes j hj]
    split
    · next hcurrent => exact (receivedByte_concat_current bit (by omega) (by omega)).symm
    · next hother => exact (receivedByte_concat_other bit (by omega)).symm

/-- A match leaves a frame that holds the terminator's 0 alone. -/
theorem startFrame_holds (b : Block) : Holds (startFrame b) [false] where
  position := rfl
  bytes j hj := by
    have hzero : receivedByte [false] j = 0#8 := by interval_cases j <;> rfl
    rw [hzero, Block.pkt, startFrame_mem, read_clearPacket, if_pos hj]

/-! ### The frame machine along a run (rules R130 to R135) -/

/-- The bits of the current frame after one more taken bit: none while no frame has begun; a 0 begins one; the fortieth
bit completes it. -/
def advanceFrame (bits : List Bool) (bit : Bool) : List Bool :=
  if bits = [] then (if bit then [] else [false]) else if bits.length = 39 then [] else bits ++ [bit]

/-- The record stands where the bits of the current frame say: outside ACC with none, in ACC with some. -/
def InFrame (b : Block) (bits : List Bool) : Prop :=
  (b.fstate ≠ .acc ∧ bits = []) ∨ (b.fstate = .acc ∧ bits ≠ [] ∧ Holds b bits)

/-- Where the record stands is read from the frame state, the positions and the buffer. -/
theorem InFrame.congr {b b' : Block} {bits : List Bool} (h : InFrame b bits) (hfstate : b'.fstate = b.fstate)
    (hbyte : b'.bytePos = b.bytePos) (hbit : b'.bitPos = b.bitPos) (hmem : b'.mem = b.mem) : InFrame b' bits := by
  obtain ⟨hf, hbits⟩ | ⟨hf, hbits, hpos, hbytes⟩ := h
  · exact .inl ⟨hfstate ▸ hf, hbits⟩
  · exact .inr ⟨hfstate.trans hf, hbits, by rw [hbyte, hbit, hpos], by simpa only [Block.pkt, hmem] using hbytes⟩

section
variable {s t : State} {i : Instr} {bits : List Bool}

theorem takenBit_of_ne_decode (h : i ≠ .decode) (s : State) : takenBit i s = [] := if_neg fun hd => h hd.1

theorem takenBit_decode_pending (hv : s.blk.evtValid = true) : takenBit .decode s = [s.blk.evtBit] :=
  if_pos ⟨rfl, hv⟩

theorem takenBit_decode_nothing (hv : s.blk.evtValid = false) : takenBit .decode s = [] :=
  if_neg fun hd => by simp [hv] at hd

/-- A taken bit moves the frame on. -/
theorem exec_decode_advances (hinv : s.Inv) (hframe : InFrame s.blk bits) (hv : s.blk.evtValid = true)
    (h : exec .decode s = .next t) : InFrame t.blk (advanceFrame bits s.blk.evtBit) := by
  obtain ⟨hf, rfl⟩ | ⟨hf, hbits, hholds⟩ := hframe
  · obtain ⟨hnone, -⟩ | ⟨-, b, hseek, hhist, -, -, hblk⟩ := exec_decode_searching hinv hf h
    · simp [hv] at hnone
    · rw [hblk, seekStep_of_sentinel _ hhist]
      cases s.blk.evtBit with
      | true => exact .inl ⟨by simp [hseek], rfl⟩
      | false => exact .inr ⟨rfl, by simp [advanceFrame], startFrame_holds _⟩
  · have hp := hinv.frame.acc_bytePos hf
    have hnext : Holds (accumulate (takeEvent s.blk) s.blk.evtBit) (bits ++ [s.blk.evtBit]) :=
      accumulate_holds _ ⟨hholds.position, hholds.bytes⟩ hp
    have hpos := hnext.position
    have hlast := accumulate_bytePos_eq_five_iff (b := takeEvent s.blk) (bit := s.blk.evtBit) hp
    rw [exec_decode_acc hv hf hp] at h
    cases h
    have hstart := hholds.position
    rw [advanceFrame, if_neg hbits]
    split
    · next h39 =>
      have h5 : (accumulate (takeEvent s.blk) s.blk.evtBit).bytePos.val = 5 :=
        hlast.mpr (by simp only [takeEvent_bytePos, takeEvent_bitPos]; omega)
      exact .inl ⟨by simp [(closeFrame_complete h5).1], rfl⟩
    · next h39 =>
      have h5 : (accumulate (takeEvent s.blk) s.blk.evtBit).bytePos.val ≠ 5 := fun h5 => h39 (by
        have := hlast.mp h5
        simp only [takeEvent_bytePos, takeEvent_bitPos] at this
        omega)
      rw [(closeFrame_incomplete h5).1]
      exact .inr ⟨by simp [accumulate_frame, hf], by simp, hnext⟩

/-- One command, RESET and a firing timeout apart, moves the frame on by the bit it takes, if it takes one. -/
theorem exec_advances (hinv : s.Inv) (hframe : InFrame s.blk bits) (hreset : i ≠ .reset)
    (hquiet : firesTimeout i s = false) (h : exec i s = .next t) :
    InFrame t.blk ((takenBit i s).foldl advanceFrame bits) := by
  by_cases hdecode : i = .decode
  · subst hdecode
    cases hv : s.blk.evtValid with
    | true =>
      rw [takenBit_decode_pending hv]
      exact exec_decode_advances hinv hframe hv h
    | false =>
      rw [takenBit_decode_nothing hv]
      rw [exec_decode_nothing_pending hv] at h
      cases h
      exact hframe
  · rw [takenBit_of_ne_decode hdecode]
    obtain ⟨level, rfl, hblk⟩ | rfl | ⟨-, hblk⟩ | ⟨-, hblk⟩ := exec_next_cases hreset h
    · obtain ⟨-, hbyte, hbit, hmem, -⟩ := tickSteps_frame s.config level s.blk
      have hfstate := exec_tick_keeps_fstate h hquiet
      rw [← hblk] at hbyte hbit hmem
      exact hframe.congr hfstate hbyte hbit hmem
    · exact absurd rfl hdecode
    · exact hframe.congr (by simp [hblk]) (by simp [hblk]) (by simp [hblk]) (by simp [hblk])
    · exact hblk ▸ hframe

theorem execAll_advances {run : List Instr} (hinv : s.Inv) (hframe : InFrame s.blk bits) (hreset : .reset ∉ run)
    (hquiet : noTimeout run s = true) (h : execAll run s = .next t) :
    t.Inv ∧ InFrame t.blk ((takenBits run s).foldl advanceFrame bits) := by
  induction run generalizing s bits with
  | nil =>
    cases h
    exact ⟨hinv, hframe⟩
  | cons i run ih =>
    obtain ⟨u, hu, hrun⟩ := execAll_cons_eq_next h
    obtain ⟨hi, hreset⟩ := List.ne_and_not_mem_of_not_mem_cons hreset
    rw [noTimeout_cons_next run hu, Bool.and_eq_true, Bool.not_eq_true'] at hquiet
    obtain ⟨hfirst, hquiet⟩ := hquiet
    rw [takenBits_cons_next run hu, List.foldl_append]
    exact ih (exec_keeps_inv hinv hu) (exec_advances hinv hframe hi.symm hfirst hu) hreset hquiet hrun

end

/-! ### The bits of a whole frame (rules R75, R143) -/

theorem foldl_advanceFrame_ones (m : Nat) : (List.replicate m true).foldl advanceFrame [] = [] := by
  induction m with
  | zero => rfl
  | succ m ih => exact ih

/-- Up to its thirty-ninth bit a frame that has begun collects every bit. -/
theorem foldl_advanceFrame_begun {bits rest : List Bool} (hbits : bits ≠ []) (hlen : bits.length + rest.length ≤ 39) :
    rest.foldl advanceFrame bits = bits ++ rest := by
  induction rest generalizing bits with
  | nil => simp
  | cons bit rest ih =>
    rw [List.length_cons] at hlen
    have hstep : advanceFrame bits bit = bits ++ [bit] := by
      rw [advanceFrame, if_neg hbits, if_neg (by omega)]
    rw [List.foldl_cons, hstep, ih (by simp) (by simp; omega), List.append_assoc, List.singleton_append]

/-- The bits of a byte, most significant first, make the byte. -/
theorem foldl_shiftIn_bitsMsbFirst (v : Byte) : (bitsMsbFirst v 8).foldl shiftIn 0x00#8 = v := by
  revert v
  decide

/-- The terminator's 0 and the 39 bits after it make the packet, where byte 0 has bit 7 clear. -/
theorem receivedByte_frame {p0 : Byte} (p1 p2 p3 p4 : Byte) (h0 : p0.getLsbD 7 = false) :
    receivedByte (false :: bitsAfterSync p0 p1 p2 p3 p4) 0 = p0 ∧
    receivedByte (false :: bitsAfterSync p0 p1 p2 p3 p4) 1 = p1 ∧
    receivedByte (false :: bitsAfterSync p0 p1 p2 p3 p4) 2 = p2 ∧
    receivedByte (false :: bitsAfterSync p0 p1 p2 p3 p4) 3 = p3 ∧
    receivedByte (false :: bitsAfterSync p0 p1 p2 p3 p4) 4 = p4 := by
  rw [← h0]
  exact ⟨foldl_shiftIn_bitsMsbFirst p0, foldl_shiftIn_bitsMsbFirst p1, foldl_shiftIn_bitsMsbFirst p2,
    foldl_shiftIn_bitsMsbFirst p3, foldl_shiftIn_bitsMsbFirst p4⟩

/-- Settles O30: before its last bit the frame stands at byte 4 bit 7 with the 39 bits taken, and the DECODE of the last
one completes it. -/
theorem theBitsOfAFrameDecodeToItsPacket : Obligations.TheBitsOfAFrameDecodeToItsPacket := by
  intro s u run m p0 p1 p2 p3 p4 hinv hf h0 hreset hrun hv hquiet hbits
  have hframe_len : (bitsAfterSync p0 p1 p2 p3 p4).length = 39 := rfl
  have htaken : takenBits run s = List.replicate m true ++ false :: (bitsAfterSync p0 p1 p2 p3 p4).dropLast := by
    have := congrArg List.dropLast hbits
    rwa [List.dropLast_concat, List.dropLast_append_of_ne_nil (List.cons_ne_nil _ _)] at this
  have hwhole : (false :: (bitsAfterSync p0 p1 p2 p3 p4).dropLast) ++ [u.blk.evtBit] =
      false :: bitsAfterSync p0 p1 p2 p3 p4 := by
    rw [htaken, List.append_assoc] at hbits
    exact List.append_cancel_left hbits
  obtain ⟨hinv_u, hframe⟩ := execAll_advances hinv (.inl ⟨hf, rfl⟩) hreset hquiet hrun
  rw [htaken, List.foldl_append, foldl_advanceFrame_ones, List.foldl_cons] at hframe
  have hbegun : (bitsAfterSync p0 p1 p2 p3 p4).dropLast.foldl advanceFrame (advanceFrame [] false) =
      false :: (bitsAfterSync p0 p1 p2 p3 p4).dropLast :=
    foldl_advanceFrame_begun (bits := [false]) (by simp) (by simp [hframe_len])
  rw [hbegun] at hframe
  obtain ⟨-, hnil⟩ | ⟨hacc, -, hholds⟩ := hframe
  · simp at hnil
  have hpos := hholds.position
  simp only [List.length_cons, List.length_dropLast, hframe_len] at hpos
  have h4 : u.blk.bytePos.val = 4 := by omega
  have h7 : u.blk.bitPos.val = 7 := by omega
  have hend := accumulate_holds (b := takeEvent u.blk) u.blk.evtBit ⟨hholds.position, hholds.bytes⟩
    (hinv_u.frame.acc_bytePos hacc)
  rw [hwhole] at hend
  obtain ⟨hp0, hp1, hp2, hp3, hp4⟩ := receivedByte_frame p1 p2 p3 p4 h0
  exact ⟨_, exec_decode_last_bit hv hacc h4 h7, rfl, (hend.bytes 0 (by decide)).trans hp0,
    (hend.bytes 1 (by decide)).trans hp1, (hend.bytes 2 (by decide)).trans hp2, (hend.bytes 3 (by decide)).trans hp3,
    (hend.bytes 4 (by decide)).trans hp4, rfl, rfl, rfl⟩

end Sys2Proof.Machine
end

section
/-! PROOFS. The statements of 42_validate_extract.md on the checksum: it is a polynomial remainder (section 1), it is
linear, and VALID detects every single-bit change (section 3). -/

namespace Sys2Proof.Machine

/-! ### One step of the checksum is linear over XOR (rule R160) -/

/-- The feedback of one step, in one place. -/
theorem crcBit_eq (crc : Byte) (bit : Bool) :
    crcBit crc bit = (crc <<< 1) ^^^ (if crc.getLsbD 7 ^^ bit then Config.crcPoly else 0#8) := by
  unfold crcBit
  split <;> simp

theorem crcBit_xor (a b : Byte) (x y : Bool) : crcBit (a ^^^ b) (x ^^ y) = crcBit a x ^^^ crcBit b y := by
  have hfeedback : ∀ f g : Bool, (if f ^^ g then Config.crcPoly else 0#8) =
      (if f then Config.crcPoly else 0#8) ^^^ (if g then Config.crcPoly else 0#8) := by decide
  have hbits : ((a ^^^ b).getLsbD 7 ^^ (x ^^ y)) = ((a.getLsbD 7 ^^ x) ^^ (b.getLsbD 7 ^^ y)) := by
    rw [BitVec.getLsbD_xor]
    simp only [Bool.xor_assoc, Bool.xor_left_comm]
  rw [crcBit_eq, crcBit_eq, crcBit_eq, hbits, hfeedback, BitVec.shiftLeft_xor_distrib]
  ac_rfl

theorem crcBits_xor (a b d e : Byte) (k : Nat) : crcBits (a ^^^ b) (d ^^^ e) k = crcBits a d k ^^^ crcBits b e k := by
  induction k generalizing a b with
  | zero => rfl
  | succ k ih => rw [crcBits, BitVec.getLsbD_xor, crcBit_xor, ih, crcBits, crcBits]

theorem crcByte_xor (a b d e : Byte) : crcByte (a ^^^ b) (d ^^^ e) = crcByte a d ^^^ crcByte b e :=
  crcBits_xor a b d e 8

/-- Settles O34: the initial value is 0, and each byte is linear. -/
theorem checksumIsLinearOverXor : Obligations.ChecksumIsLinearOverXor := by
  intro a0 a1 a2 a3 b0 b1 b2 b3
  have hinit : (0x00#8 : Byte) = 0x00#8 ^^^ 0x00#8 := rfl
  rw [crc8, hinit, crcByte_xor, crcByte_xor, crcByte_xor, crcByte_xor]
  rfl

/-! ### The checksum is the remainder on long division (rule R160) -/

/-- Multiplication by `x` modulo the generator: a step of the checksum on a 0 bit. -/
def timesX (r : Byte) : Byte := crcBit r false

theorem timesX_iterate_xor (n : Nat) (a b : Byte) : timesX^[n] (a ^^^ b) = timesX^[n] a ^^^ timesX^[n] b := by
  induction n with
  | zero => rfl
  | succ n ih =>
    rw [Function.iterate_succ_apply', Function.iterate_succ_apply', Function.iterate_succ_apply', ih]
    exact crcBit_xor _ _ false false

/-- Long division multiplies by `x` and takes the next coefficient at the low end. -/
theorem divideStep_eq (r : Byte) (coefficient : Bool) :
    divideStep r coefficient = timesX r ^^^ divideStep 0#8 coefficient := by
  revert r coefficient
  decide

/-- The checksum multiplies by `x` and takes the next coefficient eight places up. -/
theorem crcBit_eq_timesX (crc : Byte) (bit : Bool) :
    crcBit crc bit = timesX crc ^^^ timesX^[8] (divideStep 0#8 bit) := by
  have hbit : crcBit 0#8 bit = timesX^[8] (divideStep 0#8 bit) := by cases bit <;> rfl
  rw [← hbit, timesX, ← crcBit_xor, BitVec.xor_zero, Bool.false_xor]

/-- The checksum register is the division's remainder, eight places up: each bit keeps it so. -/
theorem crcBit_timesX8 (r : Byte) (bit : Bool) : crcBit (timesX^[8] r) bit = timesX^[8] (divideStep r bit) :=
  calc crcBit (timesX^[8] r) bit
    _ = timesX (timesX^[8] r) ^^^ timesX^[8] (divideStep 0#8 bit) := crcBit_eq_timesX _ _
    _ = timesX^[8] (timesX r) ^^^ timesX^[8] (divideStep 0#8 bit) := rfl
    _ = timesX^[8] (timesX r ^^^ divideStep 0#8 bit) := (timesX_iterate_xor 8 _ _).symm
    _ = timesX^[8] (divideStep r bit) := by rw [← divideStep_eq]

theorem foldl_crcBit_timesX8 (bits : List Bool) (r : Byte) :
    bits.foldl crcBit (timesX^[8] r) = timesX^[8] (bits.foldl divideStep r) := by
  induction bits generalizing r with
  | nil => rfl
  | cons bit bits ih => rw [List.foldl_cons, crcBit_timesX8, ih, List.foldl_cons]

/-- Eight 0 coefficients multiply the remainder by `x^8`. -/
theorem foldl_divideStep_zeros (r : Byte) : (List.replicate 8 false).foldl divideStep r = timesX^[8] r := by
  have hzero : ∀ r, divideStep r false = timesX r := fun r => by
    rw [divideStep_eq]
    exact BitVec.xor_zero
  simp only [List.replicate, List.foldl, hzero]
  rfl

theorem crcBits_eq_foldl (crc d : Byte) (k : Nat) : crcBits crc d k = (bitsMsbFirst d k).foldl crcBit crc := by
  induction k generalizing crc with
  | zero => rfl
  | succ k ih => rw [crcBits, ih, bitsMsbFirst, List.foldl_cons]

/-- Settles O33: the register stays eight places above the remainder, from 0 on. -/
theorem checksumIsThePolynomialRemainder : Obligations.ChecksumIsThePolynomialRemainder := by
  intro d0 d1 d2 d3
  have hinit : (0x00#8 : Byte) = timesX^[8] 0x00#8 := rfl
  rw [polyRemainder, List.foldl_append, foldl_divideStep_zeros, ← foldl_crcBit_timesX8, ← hinit]
  simp only [crc8, crcByte, crcBits_eq_foldl, List.foldl_append]

/-! ### Single-bit changes (rule R168) -/

/-- Multiplication by `x` loses nothing: the generator's constant coefficient is 1. -/
theorem timesX_ne_zero {r : Byte} (h : r ≠ 0#8) : timesX r ≠ 0#8 := by
  revert r
  decide

theorem timesX_iterate_ne_zero (n : Nat) {r : Byte} (h : r ≠ 0#8) : timesX^[n] r ≠ 0#8 := by
  induction n with
  | zero => exact h
  | succ n ih =>
    rw [Function.iterate_succ_apply']
    exact timesX_ne_zero ih

theorem crcByte_zero_right (crc : Byte) : crcByte crc 0#8 = timesX^[8] crc := rfl

theorem crcByte_twoPow_ne_zero {k : Nat} (hk : k < 8) : crcByte 0x00#8 (BitVec.twoPow 8 k) ≠ 0#8 := by
  revert k
  decide

/-- A byte with bit `k` set at address `i`, and 0 elsewhere. -/
def singleBit (i k a : Nat) : Byte := if a = i then BitVec.twoPow 8 k else 0#8

/-- A 0 byte before the bit leaves the register 0, and one after it loses nothing. -/
theorem crc8_singleBit_ne_zero {i k : Nat} (hi : i < 4) (hk : k < 8) :
    crc8 (singleBit i k 0) (singleBit i k 1) (singleBit i k 2) (singleBit i k 3) ≠ 0#8 := by
  have hbit := crcByte_twoPow_ne_zero hk
  have hzero : crcByte 0x00#8 0#8 = 0#8 := rfl
  have hkeep : ∀ {crc : Byte}, crc ≠ 0#8 → crcByte crc 0#8 ≠ 0#8 := fun {crc} h => by
    rw [crcByte_zero_right]
    exact timesX_iterate_ne_zero 8 h
  interval_cases i <;> simp only [crc8, singleBit, reduceIte, Nat.reduceEqDiff, zero_ne_one, one_ne_zero,
    OfNat.ofNat_ne_zero, OfNat.zero_ne_ofNat, OfNat.one_ne_ofNat, OfNat.ofNat_ne_one, hzero]
  · exact hkeep (hkeep (hkeep hbit))
  · exact hkeep (hkeep hbit)
  · exact hkeep hbit
  · exact hbit

/-- Settles O35: the checksum of the changed bytes differs by the checksum of the change, and byte 4 stays. -/
theorem validDetectsEverySingleBitFlip : Obligations.ValidDetectsEverySingleBitFlip := by
  intro s s' i k hi hk hvalid hflip hother
  have hmatch : packetCrc s.blk = s.blk.pkt 4 := by
    by_contra hne
    rw [exec_valid_of_mismatch hne] at hvalid
    simp at hvalid
  have hpkt : ∀ a < 5, s'.blk.pkt a = s.blk.pkt a ^^^ singleBit i k a := fun a ha => by
    by_cases hai : a = i
    · rw [hai, hflip, singleBit, if_pos rfl]
    · rw [hother a ha hai, singleBit, if_neg hai, BitVec.xor_zero]
  have hcrc : packetCrc s'.blk = packetCrc s.blk ^^^
      crc8 (singleBit i k 0) (singleBit i k 1) (singleBit i k 2) (singleBit i k 3) := by
    rw [packetCrc, hpkt 0 (by decide), hpkt 1 (by decide), hpkt 2 (by decide), hpkt 3 (by decide),
      checksumIsLinearOverXor, packetCrc]
  refine exec_valid_of_mismatch fun hsame => crc8_singleBit_ne_zero hi hk ?_
  rw [hcrc, hother 4 (by decide) (by omega), ← hmatch] at hsame
  exact BitVec.xor_right_inj _ |>.mp (hsame.trans BitVec.xor_zero.symm)

end Sys2Proof.Machine
end

section
/-! PROOFS. The statements of 43_consumer.md on the operands and the counters of RDBYTE and RDSTAT. -/

namespace Sys2Proof.Machine

section
variable {s : State}

theorem exec_rdbyte_reserved {i : BitVec 3} (hi : 4 < i.toNat) :
    exec (.rdbyte i) s = .refused .reservedPacketIndex := by
  have hread : memRead s.blk.mem i.toNat = none := if_neg (show ¬ i.toNat < 5 by omega)
  simp only [exec, execRdbyte, hread]

theorem statusValue_reserved (c : Config) (b : Block) {k : BitVec 4} (hk : 9 < k.toNat) : statusValue c b k = none := by
  have hlt := k.isLt
  unfold statusValue
  generalize k.toNat = n at hk hlt
  interval_cases n <;> rfl

theorem exec_rdstat_reserved {k : BitVec 4} (hk : 9 < k.toNat) : exec (.rdstat k) s = .refused .reservedSelector := by
  simp only [exec, execRdstat, statusValue_reserved s.config s.blk hk]

end

/-- Settles O44. -/
theorem reservedOperandsAreRefused : Obligations.ReservedOperandsAreRefused :=
  ⟨fun _ _ => exec_rdbyte_reserved, fun _ _ => exec_rdstat_reserved⟩

/-- A counter inside a field of at most 16 bits fits the result bus. -/
theorem lt_two_pow_sixteen {v width : Nat} (hv : v < 2 ^ width) (hw : width ≤ 16) : v < 2 ^ 16 :=
  hv.trans_le (Nat.pow_le_pow_right (by decide) hw)

/-- Settles O47. -/
theorem rdstatAnswersForEveryCounterWidth : Obligations.RdstatAnswersForEveryCounterWidth := by
  refine ⟨fun k s hk => ?_, fun s hinv => ⟨lt_two_pow_sixteen ?cnt, lt_two_pow_sixteen ?tmo⟩⟩
  · obtain ⟨v, hv⟩ := statusValue_of_le_nine s.config s.blk hk
    exact ⟨v, exec_rdstat_answer s hv⟩
  case cnt =>
    have hcnt := hinv.sampler.cnt_le
    have hpos := Nat.two_pow_pos s.config.cntW
    simp only [Config.cntMax] at hcnt
    omega
  case tmo =>
    have := hinv.config_wf.timeout_below_field_maximum hinv.frame.tmo_le
    omega

end Sys2Proof.Machine
end

section
/-! PROOFS. The statements of 00_scope.md and 60_exceptions.md on a step that runs no command, and of
70_reset_and_hazards.md on the readings after reset (rule R252). -/

namespace Sys2Proof.Machine

/-- Settles O60. -/
theorem stepRefusesAnIllFormedConfiguration : Obligations.StepRefusesAnIllFormedConfiguration := fun _ h => if_neg h

/-- Settles O10. -/
theorem noCommandNoChange : Obligations.NoCommandNoChange := by
  intro s hwf hempty
  simp only [step, if_pos hwf, fetch, hempty, noCommand]

/-- Each of the four readings finds its field at 0 in `S0`, and changes the result bus alone. -/
theorem exec_reading_of_reset {s : State} (hblk : s.blk = Block.reset) {i : Instr}
    (hi : i = .poll ∨ i = .rdstat 4 ∨ i = .rdstat 8 ∨ i = .decode) :
    exec i s = .next { s with result := some 0#16 } := by
  obtain rfl | rfl | rfl | rfl := hi
  · exact exec_poll_of_not_pktReady (by rw [hblk]; rfl)
  · exact exec_rdstat_fstate (st := .idle) (by rw [hblk]; rfl)
  · have htmo : s.blk.tmo = 0 := by rw [hblk]; rfl
    have := exec_rdstat_tmo (s := s) (by omega)
    rwa [htmo] at this
  · exact exec_decode_nothing_pending (by rw [hblk]; rfl)

/-- Settles O59. -/
theorem afterResetTheReadingsAreZero : Obligations.AfterResetTheReadingsAreZero := by
  intro i hi
  refine ⟨fun s => ⟨{ s with blk := Block.reset, result := some 0#16 }, ?run, rfl, rfl⟩,
    fun c => ⟨_, exec_reading_of_reset (powerOn_blk c) hi, rfl, rfl⟩⟩
  case run =>
    rw [execAll_cons_next _ (exec_reset s),
      execAll_cons_next [] (exec_reading_of_reset (s := { s with blk := Block.reset, result := none }) rfl hi),
      execAll_nil]

end Sys2Proof.Machine
end

section
/-! PROOFS. The statements of 30_encoding.md Part 3 on the pseudo-instructions: what SEND delivers, and when FRAME
reproduces its packet. -/

namespace Sys2Proof.Machine

/-! ### What a run keeps -/

section
variable {run : List Instr} {s t : State}

theorem execAll_keeps_inv (hinv : s.Inv) (h : execAll run s = .next t) : t.Inv := by
  induction run generalizing s with
  | nil =>
    cases h
    exact hinv
  | cons i run ih =>
    obtain ⟨u, hu, hrun⟩ := execAll_cons_eq_next h
    exact ih (exec_keeps_inv hinv hu) hrun

theorem execAll_keeps_config (h : execAll run s = .next t) : t.config = s.config := by
  induction run generalizing s with
  | nil =>
    cases h
    rfl
  | cons i run ih =>
    obtain ⟨u, hu, hrun⟩ := execAll_cons_eq_next h
    exact (ih hrun).trans (exec_keeps_config hu).1

theorem noTimeout_append_next {rest : List Instr} (h : execAll run s = .next t) :
    noTimeout (run ++ rest) s = (noTimeout run s && noTimeout rest t) := by
  induction run generalizing s with
  | nil =>
    cases h
    rfl
  | cons i run ih =>
    obtain ⟨u, hu, hrun⟩ := execAll_cons_eq_next h
    rw [List.cons_append, noTimeout_cons_next _ hu, noTimeout_cons_next _ hu, ih hrun, Bool.and_assoc]

/-- TICKs take no event. -/
theorem takenBits_ticks (levels : List Bool) (s : State) : takenBits (levels.map Instr.tick) s = [] := by
  induction levels generalizing s with
  | nil => rfl
  | cons level levels ih =>
    rw [List.map_cons, takenBits_cons_next _ (exec_tick level s), takenBit_of_ne_decode (by simp), ih, List.nil_append]

end

/-! ### SEND (rule R94) -/

/-- The levels of SEND's pulse: one of minimum accepted width, and the LOW sample that ends it. -/
def pulseLevels (c : Config) (bit : Bool) : List Bool :=
  List.replicate (if bit then c.hiMin else c.loMin) true ++ [false]

/-- The levels of the gap after SEND's DECODE. -/
def gapLevels (c : Config) : List Bool := List.replicate (c.gapMin - 1) false

theorem send_eq (c : Config) (bit : Bool) :
    send c bit = (pulseLevels c bit).map Instr.tick ++ .decode :: (gapLevels c).map Instr.tick := by
  simp [send, pulseLevels, gapLevels, ticks_eq_map]

section
variable {s : State}

/-- The pulse leaves its bit pending and the sampler at the start of a gap. -/
theorem execAll_pulse (bit : Bool) (hwf : s.config.wf) (hstart : pulseCanStart s.config s.blk) :
    ∃ u, execAll ((pulseLevels s.config bit).map Instr.tick) s = .next u ∧ u.blk.sstate = .gap ∧ u.blk.cnt = 0 ∧
      u.blk.evtValid = true ∧ u.blk.evtBit = bit := by
  obtain ⟨⟨hmin, hhi, hsep, hlo, -⟩, -, -⟩ := id hwf
  rw [pulseLevels, List.map_append, ← ticks_eq_map]
  cases bit with
  | true =>
    obtain ⟨u, hu, hcnt, hone, -⟩ := pulseWidthDecidesTheBit s s.config.hiMin hwf hmin hstart
    obtain ⟨hgap, hvalid, hbit⟩ := hone ⟨le_rfl, hhi⟩
    exact ⟨u, hu, hgap, hcnt, hvalid, hbit⟩
  | false =>
    obtain ⟨u, hu, hcnt, -, hzero, -⟩ := pulseWidthDecidesTheBit s s.config.loMin hwf (by omega) hstart
    obtain ⟨hgap, hvalid, hbit⟩ := hzero ⟨le_rfl, hlo⟩
    exact ⟨u, hu, hgap, hcnt, hvalid, hbit⟩

/-- The gap after a classification leaves one LOW sample to its minimum, and no event. -/
theorem execAll_gap (hwf : s.config.wf) (hs : s.blk.sstate = .gap) (hcnt : s.blk.cnt = 0)
    (hv : s.blk.evtValid = false) :
    ∃ t, execAll ((gapLevels s.config).map Instr.tick) s = .next t ∧ t.blk.sstate = .gap ∧
      t.blk.cnt + 1 = s.config.gapMin ∧ t.blk.evtValid = false := by
  obtain ⟨-, ⟨hmin, hgap, hmax⟩, -⟩ := hwf
  obtain ⟨t, ht, hsstate, hcount, hvalid, -⟩ := execAll_ticks_sampler (gapLevels s.config) s
  have hcounted := sampleAll_replicate_counts (c := s.config) samplerStep_gap_low (s.config.gapMin - 1) hs (by omega)
  rw [gapLevels, hcounted] at hsstate hcount hvalid
  refine ⟨t, ht, hsstate.trans hs, ?_, hvalid.trans hv⟩
  rw [hcount]
  simp only
  omega

/-- After a gap one sample short of its minimum the next HIGH sample starts a pulse. -/
theorem pulseCanStart_of_gap {c : Config} {b : Block} (hwf : c.wf) (hs : b.sstate = .gap)
    (hcnt : b.cnt + 1 = c.gapMin) :
    pulseCanStart c b := by
  obtain ⟨-, ⟨-, hgap, hmax⟩, -⟩ := hwf
  have hcount : satInc c b.cnt = c.gapMin := (satInc_of_lt (by omega)).trans hcnt
  exact .inr ⟨hs, hcount.ge, by omega⟩

end

/-- Settles O57: the pulse raises the bit, DECODE takes it, and the gap waits for the next pulse. -/
theorem sendDeliversOneBit : Obligations.SendDeliversOneBit := by
  intro s bit hinv hstart
  have hwf := hinv.config_wf
  obtain ⟨u, hu, hgap, hcnt, hvalid, hbit⟩ := execAll_pulse bit hwf hstart
  obtain ⟨v, hv⟩ := exec_answers_of_inv (i := .decode) (execAll_keeps_inv hinv hu) rfl
  obtain ⟨-, hsstate, hcount, -, hconfig, -⟩ := exec_decode_frame hv
  have hconfig_v : v.config = s.config := hconfig.trans (execAll_keeps_config hu)
  obtain ⟨t, ht, hgap_t, hcnt_t, hvalid_t⟩ := execAll_gap (s := v) (by rwa [hconfig_v]) (hsstate.trans hgap)
    (hcount.trans hcnt) (exec_decode_evtValid hv)
  have hconfig_t : t.config = s.config := (execAll_keeps_config ht).trans hconfig_v
  rw [hconfig_v] at ht hcnt_t
  refine ⟨t, ?run, ?taken, hgap_t, hcnt_t, hvalid_t, ?start⟩
  case run => rw [send_eq, execAll_append_next hu, execAll_cons_next _ hv, ht]
  case taken =>
    rw [send_eq, takenBits_append_next hu, takenBits_ticks, takenBits_cons_next _ hv, takenBit_decode_pending hvalid,
      takenBits_ticks, hbit]
    rfl
  case start =>
    rw [hconfig_t]
    exact pulseCanStart_of_gap hwf hgap_t hcnt_t

/-- One SEND after the other: the bits are taken in order. -/
theorem execAll_sends (bits : List Bool) {s : State} (hinv : s.Inv) (hstart : pulseCanStart s.config s.blk) :
    ∃ t, execAll (bits.flatMap (send s.config)) s = .next t ∧ takenBits (bits.flatMap (send s.config)) s = bits ∧
      pulseCanStart t.config t.blk := by
  induction bits generalizing s with
  | nil => exact ⟨s, rfl, rfl, hstart⟩
  | cons bit bits ih =>
    obtain ⟨u, hu, htaken, -, -, -, hnext⟩ := sendDeliversOneBit s bit hinv hstart
    obtain ⟨t, ht, htaken', hnext'⟩ := ih (execAll_keeps_inv hinv hu) hnext
    rw [execAll_keeps_config hu] at ht htaken'
    refine ⟨t, ?_, ?_, hnext'⟩
    · rw [List.flatMap_cons, execAll_append_next hu, ht]
    · rw [List.flatMap_cons, takenBits_append_next hu, htaken, htaken']
      rfl

/-! ### The timeout along a run (rule R105) -/

/-- How many TICKs a run issues. -/
def tickCount (run : List Instr) : Nat := run.countP fun i => i.domain == .tick

theorem tickCount_cons (i : Instr) (run : List Instr) :
    tickCount (i :: run) = tickCount run + if i.domain = .tick then 1 else 0 := by
  simp [tickCount, List.countP_cons]

@[simp] theorem tickCount_append (run rest : List Instr) : tickCount (run ++ rest) = tickCount run + tickCount rest :=
  List.countP_append

@[simp] theorem tickCount_ticks (levels : List Bool) : tickCount (levels.map Instr.tick) = levels.length := by
  induction levels with
  | nil => rfl
  | cons level levels ih => simp [tickCount_cons, ih, Instr.domain]

section
variable {i : Instr} {s t : State}

theorem exec_tick_tmo_le {level : Bool} (h : exec (.tick level) s = .next t) : t.blk.tmo ≤ s.blk.tmo + 1 := by
  obtain ⟨-, -, -, -, -, -, htmo, -⟩ := samplerStep_frame s.config level s.blk
  rw [exec_tick_blk h]
  obtain ⟨-, ht⟩ | ⟨-, -, ht⟩ | ⟨-, -, ht⟩ := timeoutStep_cases s.config (samplerStep s.config level s.blk) <;>
    simp [ht, htmo]

/-- DECODE arms the timeout with 1, disarms it, or leaves it. -/
theorem exec_decode_tmo_le (h : exec .decode s = .next t) : t.blk.tmo ≤ max 1 s.blk.tmo := by
  obtain ⟨-, rfl⟩ | ⟨-, -, rfl⟩ | ⟨-, -, rfl⟩ | ⟨-, -, -, rfl⟩ := exec_decode_next_cases h
  · exact le_max_right _ _
  · simp [seekStep_frame]
  · simp [seekStep_frame]
  · unfold closeFrame
    split <;> simp [accumulate_frame]

/-- Every command but TICK raises the timeout counter to 1 at most. -/
theorem exec_tmo_le_of_not_tick (hdomain : i.domain ≠ .tick) (h : exec i s = .next t) :
    t.blk.tmo ≤ max 1 s.blk.tmo := by
  by_cases hreset : i = .reset
  · subst hreset
    cases h
    exact Nat.zero_le _
  · obtain ⟨level, rfl, -⟩ | rfl | ⟨-, hblk⟩ | ⟨-, hblk⟩ := exec_next_cases hreset h
    · exact absurd rfl hdomain
    · exact exec_decode_tmo_le h
    · simp [hblk]
    · simp [hblk]

end

theorem firesTimeout_eq_false_of_not_tick {i : Instr} (hdomain : i.domain ≠ .tick) (s : State) :
    firesTimeout i s = false := Bool.eq_false_iff.mpr fun hfires =>
  hdomain (domain_eq_tick_iff.mpr (firesTimeout_iff.mp hfires).1)

/-- A run with fewer TICKs than the timeout has left does not fire it. -/
theorem noTimeout_of_tickCount {run : List Instr} {s : State}
    (hbudget : max 1 s.blk.tmo + tickCount run ≤ s.config.tmoMax) : noTimeout run s = true := by
  induction run generalizing s with
  | nil => rfl
  | cons i run ih =>
    rw [tickCount_cons] at hbudget
    by_cases hdomain : i.domain = .tick
    · obtain ⟨level, rfl⟩ := domain_eq_tick_iff.mp hdomain
      rw [if_pos hdomain] at hbudget
      have ht := exec_tick level s
      have htmo := exec_tick_tmo_le ht
      have hquiet : firesTimeout (.tick level) s = false := Bool.eq_false_iff.mpr fun hfires => by
        obtain ⟨-, -, hgt⟩ := firesTimeout_iff.mp hfires
        omega
      rw [noTimeout_cons_next run ht, hquiet, ih (by simp only at htmo ⊢; omega)]
      rfl
    · have hquiet : firesTimeout i s = false := firesTimeout_eq_false_of_not_tick hdomain s
      cases h : exec i s with
      | next t =>
        have htmo := exec_tmo_le_of_not_tick hdomain h
        obtain ⟨hconfig, -⟩ := exec_keeps_config h
        rw [noTimeout_cons_next run h, hquiet, ih (by rw [hconfig]; omega)]
        rfl
      | fault f => simp [noTimeout, h, hquiet]
      | refused r => simp [noTimeout, h, hquiet]

/-! ### FRAME (rules R75, R94) -/

/-- The 42 bits of a frame: two 1 bits, then the five bytes, the first of which begins with the terminator. -/
def frameBits (p0 p1 p2 p3 p4 : Byte) : List Bool :=
  true :: true ::
    (bitsMsbFirst p0 8 ++ bitsMsbFirst p1 8 ++ bitsMsbFirst p2 8 ++ bitsMsbFirst p3 8 ++ bitsMsbFirst p4 8)

theorem sendBits_eq_flatMap {c : Config} (v : Byte) (n : Nat) :
    sendBits c v n = (bitsMsbFirst v n).flatMap (send c) := by
  induction n with
  | zero => rfl
  | succ n ih => rw [sendBits, bitsMsbFirst, List.flatMap_cons, ih]

theorem frame_eq_flatMap (c : Config) (p0 p1 p2 p3 p4 : Byte) :
    frame c p0 p1 p2 p3 p4 = (frameBits p0 p1 p2 p3 p4).flatMap (send c) := by
  simp only [frame, frameBits, sendBits_eq_flatMap, List.flatMap_cons, List.flatMap_append, List.append_assoc]

theorem frameBits_eq {p0 : Byte} (p1 p2 p3 p4 : Byte) (h0 : p0.getLsbD 7 = false) :
    frameBits p0 p1 p2 p3 p4 = List.replicate 2 true ++ false :: bitsAfterSync p0 p1 p2 p3 p4 := by
  rw [← h0]
  rfl

section
variable {c : Config}

theorem pulseLevels_length_le (hwf : c.wf) (bit : Bool) : (pulseLevels c bit).length ≤ c.loMin + 1 := by
  obtain ⟨⟨-, hhi, hsep, -⟩, -⟩ := hwf
  rw [pulseLevels, List.length_append, List.length_replicate, List.length_singleton]
  split <;> omega

theorem tickCount_send_le (hwf : c.wf) (bit : Bool) : tickCount (send c bit) ≤ c.loMin + c.gapMin := by
  have hpulse := pulseLevels_length_le hwf bit
  have hdecode : Instr.decode.domain ≠ .tick := by decide
  obtain ⟨-, ⟨hgap, -⟩, -⟩ := hwf
  rw [send_eq, tickCount_append, tickCount_ticks, tickCount_cons, tickCount_ticks, if_neg hdecode, gapLevels,
    List.length_replicate]
  omega

theorem tickCount_sends_le (hwf : c.wf) (bits : List Bool) :
    tickCount (bits.flatMap (send c)) ≤ bits.length * (c.loMin + c.gapMin) := by
  induction bits with
  | nil => exact Nat.zero_le _
  | cons bit bits ih =>
    have hsend := tickCount_send_le hwf bit
    rw [List.flatMap_cons, tickCount_append, List.length_cons, Nat.succ_mul]
    omega

end

theorem reset_not_mem_sends (c : Config) (bits : List Bool) (last : Bool) :
    .reset ∉ bits.flatMap (send c) ++ (pulseLevels c last).map Instr.tick := by
  simp [send_eq]

/-- A timeout that is not armed does not fire, however many TICKs come: they change the sampler and the event alone. -/
theorem execAll_ticks_disarmed {levels : List Bool} {s t : State} (hoff : s.blk.tmo = 0)
    (h : execAll (levels.map Instr.tick) s = .next t) :
    t.blk.tmo = 0 ∧ t.blk.fstate = s.blk.fstate ∧ t.blk.mem = s.blk.mem ∧ t.blk.pktReady = s.blk.pktReady := by
  obtain ⟨hfstate, htmo, hmem, hready⟩ := sampleAll_frame s.config s.blk levels
  obtain ⟨u, hu, -, hblk⟩ := execAll_ticks levels s
  rw [h] at hu
  cases hu
  rw [hblk, timeoutStep_iterate_inactive _ (htmo.trans hoff)]
  exact ⟨htmo.trans hoff, hfstate, hmem, hready⟩

/-- From IDLE the first DECODE arms the timeout, and the rest of the frame up to its last pulse fits the budget. -/
theorem noTimeout_sends (first last : Bool) (mid : List Bool) {s : State} (hinv : s.Inv) (hidle : s.blk.fstate = .idle)
    (hstart : pulseCanStart s.config s.blk)
    (hbudget : (mid.length + 1) * (s.config.loMin + s.config.gapMin) < s.config.tmoMax) :
    noTimeout ((first :: mid).flatMap (send s.config) ++ (pulseLevels s.config last).map Instr.tick) s = true := by
  have hwf := hinv.config_wf
  have hoff : s.blk.tmo = 0 := hinv.frame.idle_iff.mp hidle
  have hfirst := pulseLevels_length_le hwf first
  have hlast := pulseLevels_length_le hwf last
  have hmid := tickCount_sends_le hwf mid
  obtain ⟨-, ⟨hgap, -⟩, -⟩ := id hwf
  rw [Nat.succ_mul] at hbudget
  obtain ⟨u, hu, -⟩ := execAll_pulse first hwf hstart
  obtain ⟨hoff_u, -⟩ := execAll_ticks_disarmed hoff hu
  obtain ⟨v, hv⟩ := exec_answers_of_inv (i := .decode) (execAll_keeps_inv hinv hu) rfl
  have harmed := exec_decode_tmo_le hv
  have hconfig : v.config = s.config := (exec_keeps_config hv).1.trans (execAll_keeps_config hu)
  have hpulse : noTimeout ((pulseLevels s.config first).map Instr.tick) s = true :=
    noTimeout_of_tickCount (by rw [tickCount_ticks]; omega)
  rw [List.flatMap_cons, send_eq, List.append_assoc, List.append_assoc, noTimeout_append_next hu, hpulse,
    List.cons_append, noTimeout_cons_next _ hv, firesTimeout_eq_false_of_not_tick (by decide)]
  refine noTimeout_of_tickCount ?_
  simp only [tickCount_append, tickCount_ticks, gapLevels, List.length_replicate, hconfig]
  omega

/-- The bits of a frame but its last one, all sent, and the last one's pulse: the frame's bits are taken or pending. -/
theorem execAll_sends_pulse (bits : List Bool) (last : Bool) {s : State} (hinv : s.Inv)
    (hstart : pulseCanStart s.config s.blk) :
    ∃ u, execAll (bits.flatMap (send s.config) ++ (pulseLevels s.config last).map Instr.tick) s = .next u ∧
      takenBits (bits.flatMap (send s.config) ++ (pulseLevels s.config last).map Instr.tick) s = bits ∧
      u.blk.evtValid = true ∧ u.blk.evtBit = last := by
  obtain ⟨v, hv, htaken, hnext⟩ := execAll_sends bits hinv hstart
  obtain ⟨u, hu, -, -, hvalid, hbit⟩ := execAll_pulse last (execAll_keeps_inv hinv hv).config_wf hnext
  rw [execAll_keeps_config hv] at hu
  refine ⟨u, (execAll_append_next hv).trans hu, ?_, hvalid, hbit⟩
  rw [takenBits_append_next hv, htaken, takenBits_ticks, List.append_nil]

/-- Where byte 0 has bit 7 clear FRAME delivers its packet: the DECODE of its last bit completes it, and the gap after
that leaves it alone. -/
theorem execAll_frame {s : State} {p0 : Byte} (p1 p2 p3 p4 : Byte) (hinv : s.Inv) (hidle : s.blk.fstate = .idle)
    (hstart : pulseCanStart s.config s.blk)
    (hbudget : 41 * (s.config.loMin + s.config.gapMin) < s.config.tmoMax) (h0 : p0.getLsbD 7 = false) :
    ∃ t, execAll (frame s.config p0 p1 p2 p3 p4) s = .next t ∧
      (t.blk.pkt 0 = p0 ∧ t.blk.pkt 1 = p1 ∧ t.blk.pkt 2 = p2 ∧ t.blk.pkt 3 = p3 ∧ t.blk.pkt 4 = p4) ∧
      t.blk.pktReady = true ∧ t.blk.fstate = .idle ∧ t.blk.tmo = 0 := by
  have hlast : frameBits p0 p1 p2 p3 p4 = (frameBits p0 p1 p2 p3 p4).dropLast ++ [p4.getLsbD 0] := rfl
  obtain ⟨u, hu, htaken, hvalid, hbit⟩ :=
    execAll_sends_pulse (frameBits p0 p1 p2 p3 p4).dropLast (p4.getLsbD 0) hinv hstart
  have hquiet := noTimeout_sends true (p4.getLsbD 0) (frameBits p0 p1 p2 p3 p4).dropLast.tail hinv hidle hstart hbudget
  have hbits := (congrArg (· ++ [u.blk.evtBit]) htaken).trans (hbit ▸ hlast.symm)
  obtain ⟨v, hv, -, hp0, hp1, hp2, hp3, hp4, hready, hfstate, hoff⟩ :=
    theBitsOfAFrameDecodeToItsPacket s u _ 2 p0 p1 p2 p3 p4 hinv (by simp [hidle]) h0 (reset_not_mem_sends _ _ _) hu
      hvalid hquiet (hbits.trans (frameBits_eq p1 p2 p3 p4 h0))
  obtain ⟨t, ht, -⟩ := execAll_ticks (gapLevels s.config) v
  obtain ⟨hoff_t, hfstate_t, hmem_t, hready_t⟩ := execAll_ticks_disarmed hoff ht
  refine ⟨t, ?run, ?packet, hready_t.trans hready, hfstate_t.trans hfstate, hoff_t⟩
  case run =>
    rw [frame_eq_flatMap, hlast, List.flatMap_append, List.flatMap_singleton, send_eq, ← List.append_assoc,
      execAll_append_next hu, execAll_cons_next _ hv, ht]
  case packet =>
    simp only [Block.pkt, hmem_t]
    exact ⟨hp0, hp1, hp2, hp3, hp4⟩

/-- Settles O58: in the other direction byte 0 has bit 7 clear after every run (rule R40 item 5). -/
theorem frameReproducesItsPacket : Obligations.FrameReproducesItsPacket := by
  intro s p0 p1 p2 p3 p4 hinv hidle hstart hbudget
  cases h0 : p0.getLsbD 7 with
  | false =>
    obtain ⟨t, ht, hpacket, hdone⟩ := execAll_frame p1 p2 p3 p4 hinv hidle hstart hbudget h0
    exact ⟨t, ht, ⟨fun _ => rfl, fun _ => hpacket⟩, fun _ => hdone⟩
  | true =>
    obtain ⟨t, ht, -⟩ := execAll_sends (frameBits p0 p1 p2 p3 p4) hinv hstart
    have hfirst := (execAll_keeps_inv hinv ht).frame.first_bit
    refine ⟨t, by rw [frame_eq_flatMap, ht], ⟨fun hpacket => ?_, nofun⟩, nofun⟩
    rw [hpacket.1, h0] at hfirst
    exact hfirst

end Sys2Proof.Machine
end
